-- ==== Sys2Proof/Machine/Literals.lean ====
section
/-! DEFINITION. The literals of rules R7 and R8 that the types are made of. Rule R343 asks for named constants, so that a
model can be re-instantiated if an audit changes one; the other constants stand in Machine/Constants.lean. -/

namespace Sys2Proof

/-- `HIST_W`: bits of sample history per line (rule R7). -/
abbrev histW : Nat := 8

/-- `CODE_W`: bits of one digit-code cell (rule R8, decision D14). -/
abbrev codeW : Nat := 5

/-- `SLOT_CAP`: digit-codes in a slot and in PendingNumber (rule R7). -/
abbrev slotCap : Nat := 30

/-- `N_SLOTS`: the logical slots, the volatile slot 0 and the persisted ones above it (rule R7). -/
abbrev nSlots : Nat := 8

/-- The width of the data bus `WD`, one code for each cell of a slot (rule R97). -/
abbrev busW : Nat := codeW * slotCap

end Sys2Proof
end

