-- ==== Sys2Proof/Word.lean ====
section
/-! DEFINITION. The plain types the rules of spec/ speak in: digit-codes, slots of them, and the two lines.
Nothing here computes. -/

namespace Sys2Proof

/-- One digit-code cell, `CODE_W` = 5 bits (rules R8, R61, R98). -/
abbrev Code := BitVec codeW

/-- One slot: `SLOT_CAP` digit-codes, cell 0 the first code typed and played (rules R60, R65). -/
abbrev Slot := Vector Code slotCap

/-- The two monitored lines (rules R2, R102): `DIAL` = 0, `PULSE` = 1. -/
inductive Line where
  | dial
  | pulse
deriving DecidableEq, Repr

end Sys2Proof
end

