-- ==== Sys2Proof/Syntax.lean ====
section
/-! DEFINITION. The operation set (rule R4): one constructor for each of the 42 rows of spec/opcode_table.json, in the
table's order, and the words of the seven formats of rule R90 that carry them. -/

namespace Sys2Proof

/-- One operation of the block, one constructor per row of the opcode table. A one-bit field the row names but its rule
ignores (`db_in`, `pc_arg`, the raw levels of `NOP`) is kept as an operand, so that every word of the format is some
instruction's encoding. A `DBOP` word does not name its line: "`line` is the choice of instance" (rule R103). -/
inductive Instr where
  -- RST and INVEC: the block's pins (rules R91 to R93)
  | reset
  | nop (rawDial rawPulse : Bool)
  | irqw
  | irql
  | tdone
  | etick
  | tick (d p : Bool)
  -- DBOP: the operation port of one filter instance (rule R103)
  | dbHold (l : Line) (dbIn : Bool)
  | dbSample (l : Line) (r : Bool)
  | dbInit (l : Line) (dbIn : Bool)
  | dbReserved (l : Line) (dbIn : Bool)
  -- PCOP: the operation port of pulse_counter (rule R104)
  | pcHold (pcArg : Bool)
  | pcAssert (pcArg : Bool)
  | pcStart (m : Bool)
  | pcEtick (pcArg : Bool)
  | pcStep (pcArg : Bool)
  | pcResolve (pcArg : Bool)
  | pcStop (pcArg : Bool)
  | pcReserved (pcArg : Bool)
  -- FSMEV: the event port of dial_command_fsm (rule R105)
  | digit0to7 (d : BitVec 3)
  | digit8to9 (d0 : Bool)
  | star
  | pound
  | fsmevReserved12to15 (low : BitVec 2)
  | timeout
  | esc1
  | esc2
  | esc3
  | fsmevReserved20to23 (low : BitVec 2)
  | fsmevReserved24to31 (low : BitVec 3)
  -- ACT: the action dial_command_fsm returns to the scheduler (rule R106)
  | actNone
  | actTone (code : Code) (ms : BitVec 16)
  | actDialout (slot : BitVec 3)
  | actReserved (rest : BitVec 24)
  -- CMD: the command port (rules R94, R95)
  | cmdNone
  | tone (code : Code) (ms : BitVec 16)
  | tsInit
  | arm (cls : BitVec 3)
  | disarm
  | sleep
  | stRead (slot : BitVec 3)
  | stWrite (slot : BitVec 3) (data : Slot)
deriving DecidableEq, Repr

/-- One word at one of the ports of rule R90, at its own width. `pins` is one clock period of the whole block: the reset
pin and the input vector beside it (rules R91, R93). The other four are the sub-block ports and the command port, each
"given so that each sub-block can be modelled and tested alone"; `cmd` carries the data bus `WD` (rule R97). -/
inductive PortWord where
  | pins (rst : Bool) (inv : BitVec 7)
  | dbop (l : Line) (w : BitVec 3)
  | pcop (w : BitVec 4)
  | fsmev (w : BitVec 5)
  | act (w : BitVec 26)
  | cmd (w : BitVec 24) (wd : BitVec busW)
deriving DecidableEq, Repr

/-- Why a word is no instruction's encoding (log entry 9). -/
inductive Reject where
  /-- an `ACT` word with a bit set in a field its kind does not use: "Fields not used by a kind are 0" (rule R106) -/
  | strayActBits
  /-- a `CMD` word with a bit set that its opcode does not name: "every bit not named for an opcode is 0" (rule R94) -/
  | strayCmdBits
deriving DecidableEq, Repr

end Sys2Proof
end

