-- ==== Sys2Proof/Decode.lean ====
section
/-! DEFINITION. The decoder of the seven formats of rule R90 and, after it, the encoder, both written from the layouts of
rules R91 to R106; then the reading of a word of spec/opcode_table.json, which does not say at which port it stands. -/

namespace Sys2Proof

/-! ### The input vector -/

/-- Rule R92: the events one input vector selects, in the fixed order `IRQW`, `IRQL`, `TDONE`, `ETICK`, `TICK`
(rule R289); an `irq_line` beside an `irq_wdt` selects nothing (rule R290); no strobe at all is `NOP`. -/
def eventsOf (v : BitVec 7) : List Instr :=
  if v &&& 0x7C#7 = 0 then [.nop (v.getLsbD 0) (v.getLsbD 1)]
  else
    (if v.getLsbD 6 then [.irqw] else []) ++
    (if v.getLsbD 5 && !v.getLsbD 6 then [.irql] else []) ++
    (if v.getLsbD 4 then [.tdone] else []) ++
    (if v.getLsbD 3 then [.etick] else []) ++
    (if v.getLsbD 2 then [.tick (v.getLsbD 0) (v.getLsbD 1)] else [])

/-! ### The sub-block ports -/

/-- Rule R103: `{db_op[1:0], db_in}` at the instance of line `l`. -/
def decodeDbop (l : Line) (w : BitVec 3) : Instr :=
  let op := w.extractLsb' 1 2
  let arg := w.getLsbD 0
  if op = 0 then .dbHold l arg
  else if op = 1 then .dbSample l arg
  else if op = 2 then .dbInit l arg
  else .dbReserved l arg

/-- Rule R104: `{pc_op[2:0], pc_arg}`. -/
def decodePcop (w : BitVec 4) : Instr :=
  let op := w.extractLsb' 1 3
  let arg := w.getLsbD 0
  if op = 0 then .pcHold arg
  else if op = 1 then .pcAssert arg
  else if op = 2 then .pcStart arg
  else if op = 3 then .pcEtick arg
  else if op = 4 then .pcStep arg
  else if op = 5 then .pcResolve arg
  else if op = 6 then .pcStop arg
  else .pcReserved arg

/-- Rule R105: the values of `fsm_ev[4:0]`. -/
def decodeFsmev (w : BitVec 5) : Instr :=
  if w < 8 then .digit0to7 (w.extractLsb' 0 3)
  else if w < 10 then .digit8to9 (w.getLsbD 0)
  else if w = 10 then .star
  else if w = 11 then .pound
  else if w < 16 then .fsmevReserved12to15 (w.extractLsb' 0 2)
  else if w = 16 then .timeout
  else if w = 17 then .esc1
  else if w = 18 then .esc2
  else if w = 19 then .esc3
  else if w < 24 then .fsmevReserved20to23 (w.extractLsb' 0 2)
  else .fsmevReserved24to31 (w.extractLsb' 0 3)

/-- Rule R106: `{act_kind[1:0], act_code[4:0], act_ms[15:0], act_slot[2:0]}`. "Fields not used by a kind are 0": a word
with such a bit set is rejected by name. Kind 3 is the row `ACT_RESERVED` whatever its other bits (log entry 9). -/
def decodeAct (w : BitVec 26) : Except Reject Instr :=
  let kind := w.extractLsb' 24 2
  let code := w.extractLsb' 19 5
  let ms := w.extractLsb' 3 16
  let slot := w.extractLsb' 0 3
  if kind = 0 then
    if code = 0 ∧ ms = 0 ∧ slot = 0 then .ok .actNone else .error .strayActBits
  else if kind = 1 then
    if slot = 0 then .ok (.actTone code ms) else .error .strayActBits
  else if kind = 2 then
    if code = 0 ∧ ms = 0 then .ok (.actDialout slot) else .error .strayActBits
  else .ok (.actReserved (w.extractLsb' 0 24))

/-! ### The command port -/

/-- Rule R97: cell `i` of the slot stands in `WD[5i+4 : 5i]`. -/
def cellsOfBus (wd : BitVec busW) : Slot :=
  Vector.ofFn fun i => wd.extractLsb' (codeW * i.val) codeW

/-- The number whose base-32 digits are the codes of a list, the first the least significant. -/
def busNumber : List Code → Nat
  | [] => 0
  | c :: cs => c.toNat + 32 * busNumber cs

/-- Rule R97, the other way: the data bus that carries a slot. -/
def busOfCells (data : Slot) : BitVec busW := BitVec.ofNat busW (busNumber data.toList)

/-- Rules R94, R95: opcode in `C[23:21]`; "every bit not named for an opcode is 0", so a word with another bit set is
rejected by name. The data bus is looked at for `ST_WRITE` only. -/
def decodeCmd (w : BitVec 24) (wd : BitVec busW) : Except Reject Instr :=
  let op := w.extractLsb' 21 3
  let low3 := w.extractLsb' 0 3
  let rest21 := w.extractLsb' 0 21
  let rest18 := w.extractLsb' 3 18
  if op = 1 then .ok (.tone (w.extractLsb' 16 5) (w.extractLsb' 0 16))
  else if op = 3 then if rest18 = 0 then .ok (.arm low3) else .error .strayCmdBits
  else if op = 6 then if rest18 = 0 then .ok (.stRead low3) else .error .strayCmdBits
  else if op = 7 then if rest18 = 0 then .ok (.stWrite low3 (cellsOfBus wd)) else .error .strayCmdBits
  else if rest21 = 0 then
    if op = 0 then .ok .cmdNone
    else if op = 2 then .ok .tsInit
    else if op = 4 then .ok .disarm
    else .ok .sleep
  else .error .strayCmdBits

/-! ### Any word at any port -/

/-- The instructions a word selects, in the order they are applied. `RST` = 1 gives `RESET` alone and the vector is
ignored (rule R93); a vector gives one to four; a word at any other port gives one operation. -/
def decode : PortWord → Except Reject (List Instr)
  | .pins true _ => .ok [.reset]
  | .pins false v => .ok (eventsOf v)
  | .dbop l w => .ok [decodeDbop l w]
  | .pcop w => .ok [decodePcop w]
  | .fsmev w => .ok [decodeFsmev w]
  | .act w => (decodeAct w).map fun i => [i]
  | .cmd w wd => (decodeCmd w wd).map fun i => [i]

/-! ### The encoder -/

/-- One bit as a vector of width `n`, at bit 0. -/
def bitAt0 (n : Nat) (b : Bool) : BitVec n := if b then 1 else 0

/-- Rule R103: the `DBOP` word of an operation and its bit. -/
def dbopWord (op : BitVec 2) (b : Bool) : BitVec 3 := op ++ BitVec.ofBool b

/-- Rule R104: the `PCOP` word of an operation and its bit. -/
def pcopWord (op : BitVec 3) (b : Bool) : BitVec 4 := op ++ BitVec.ofBool b

/-- Rule R106: the `ACT` word of its four fields. -/
def actWord (kind : BitVec 2) (code : Code) (ms : BitVec 16) (slot : BitVec 3) : BitVec 26 :=
  kind ++ code ++ ms ++ slot

/-- Rule R94: the `CMD` word of an opcode and the 21 bits below it. -/
def cmdWord (op : BitVec 3) (rest : BitVec 21) : BitVec 24 := op ++ rest

/-- Rule R94: the `CMD` word of an opcode with a 3-bit operand in `C[2:0]`. -/
def cmdWord3 (op low : BitVec 3) : BitVec 24 := op ++ 0#18 ++ low

/-- The word of an instruction: of an event, the vector with its strobe alone (rule R110); `RESET` has its vector 0. -/
def encode : Instr → PortWord
  | .reset => .pins true 0
  | .nop d p => .pins false (bitAt0 7 d ||| bitAt0 7 p <<< 1)
  | .irqw => .pins false 0x40
  | .irql => .pins false 0x20
  | .tdone => .pins false 0x10
  | .etick => .pins false 0x08
  | .tick d p => .pins false (0x04 ||| bitAt0 7 d ||| bitAt0 7 p <<< 1)
  | .dbHold l b => .dbop l (dbopWord 0 b)
  | .dbSample l r => .dbop l (dbopWord 1 r)
  | .dbInit l b => .dbop l (dbopWord 2 b)
  | .dbReserved l b => .dbop l (dbopWord 3 b)
  | .pcHold b => .pcop (pcopWord 0 b)
  | .pcAssert b => .pcop (pcopWord 1 b)
  | .pcStart m => .pcop (pcopWord 2 m)
  | .pcEtick b => .pcop (pcopWord 3 b)
  | .pcStep b => .pcop (pcopWord 4 b)
  | .pcResolve b => .pcop (pcopWord 5 b)
  | .pcStop b => .pcop (pcopWord 6 b)
  | .pcReserved b => .pcop (pcopWord 7 b)
  | .digit0to7 d => .fsmev (0#2 ++ d)
  | .digit8to9 d0 => .fsmev (0b0100#4 ++ BitVec.ofBool d0)
  | .star => .fsmev 0b01010
  | .pound => .fsmev 0b01011
  | .fsmevReserved12to15 low => .fsmev (0b011#3 ++ low)
  | .timeout => .fsmev 0b10000
  | .esc1 => .fsmev 0b10001
  | .esc2 => .fsmev 0b10010
  | .esc3 => .fsmev 0b10011
  | .fsmevReserved20to23 low => .fsmev (0b101#3 ++ low)
  | .fsmevReserved24to31 low => .fsmev (0b11#2 ++ low)
  | .actNone => .act (actWord 0 0 0 0)
  | .actTone code ms => .act (actWord 1 code ms 0)
  | .actDialout slot => .act (actWord 2 0 0 slot)
  | .actReserved rest => .act (3#2 ++ rest)
  | .cmdNone => .cmd (cmdWord 0 0) 0
  | .tone code ms => .cmd (cmdWord 1 (code ++ ms)) 0
  | .tsInit => .cmd (cmdWord 2 0) 0
  | .arm cls => .cmd (cmdWord3 3 cls) 0
  | .disarm => .cmd (cmdWord 4 0) 0
  | .sleep => .cmd (cmdWord 5 0) 0
  | .stRead slot => .cmd (cmdWord3 6 slot) 0
  | .stWrite slot data => .cmd (cmdWord3 7 slot) (busOfCells data)

/-! ### A word of the opcode table

The seven formats are seven ports with encodings of their own, and a word of the table, given as a number and a count of
bits, does not say at which port it stands. It is read at the first port, in the table's order, at which it is exactly one
instruction's encoding; where it is none's (a vector of several strobes), at the first port it fits (log entry 8). -/

/-- Whether a table row of `width` bits can be given as `nbits` bits: exactly, or filled up to whole bytes. -/
def rowFits (width nbits w : Nat) : Bool :=
  (nbits == width || nbits == (width + 7) / 8 * 8) && decide (w < 2 ^ width)

/-- The ports at which a table word may stand, in the order of the table. A `DBOP` word is taken at the dial line's
instance; the data bus of a `CMD` word is 0. -/
def tablePorts (nbits w : Nat) : List PortWord :=
  (if rowFits 1 nbits w && w == 1 then [.pins true 0] else []) ++
  (if rowFits 7 nbits w then [.pins false (BitVec.ofNat 7 w)] else []) ++
  (if rowFits 3 nbits w then [.dbop .dial (BitVec.ofNat 3 w)] else []) ++
  (if rowFits 4 nbits w then [.pcop (BitVec.ofNat 4 w)] else []) ++
  (if rowFits 5 nbits w then [.fsmev (BitVec.ofNat 5 w)] else []) ++
  (if rowFits 26 nbits w then [.act (BitVec.ofNat 26 w)] else []) ++
  (if rowFits 24 nbits w then [.cmd (BitVec.ofNat 24 w) 0] else [])

/-- Whether a port word is exactly the encoding of the one instruction it decodes to. -/
def isOneEncoding (p : PortWord) : Bool :=
  match decode p with
  | .ok [i] => decide (encode i = p)
  | _ => false

/-- The port word a table word is read as. -/
def tablePort (nbits w : Nat) : Option PortWord :=
  match (tablePorts nbits w).find? isOneEncoding with
  | some p => some p
  | none => (tablePorts nbits w).head?

/-- The instruction the decoder reads from a word of the opcode table; none where the word is no single instruction. -/
def decodeTableWord (nbits w : Nat) : Option Instr :=
  match tablePort nbits w with
  | none => none
  | some p =>
    match decode p with
    | .ok [i] => some i
    | _ => none

end Sys2Proof
end

