-- ==== Sys2Proof/Config.lean ====
section
/-! DEFINITION. What one build of the block fixes and the spec leaves open (rule R8, `92_eei_decisions.md`), and the
values no rule fixes. The open parameters are a record that a state carries, so that a statement about every state is a
statement about every build (log entry 1). What the spec gives no default for is an opaque constant. -/

namespace Sys2Proof

/-- The OPEN parameters of rule R8 but `PS0`, which is the store's content in a state (log entries 1 and 3). -/
structure Params where
  /-- `REVERSED` (rules R8, R159, decision D37) -/
  reversed : Bool
  /-- `PULSE_ASSERT`: the raw level of the pulse line when asserted, `true` for high (rules R8, R11, decision D5) -/
  pulseAssert : Bool
  /-- `ET_PER_MS`: elapsed-time ticks per millisecond (rules R8, R9, decision D10) -/
  etPerMs : Nat
  /-- `DTMF_MS` (rule R8, decision D18) -/
  dtmfMs : BitVec 16
  /-- `BEEP_MS` (rule R8, decision D18) -/
  beepMs : BitVec 16
  /-- `BEEP_LOW_MS` (rule R8, decision D18) -/
  beepLowMs : BitVec 16
  /-- `TUNE_MS` (rule R8, decision D18) -/
  tuneMs : BitVec 16
deriving DecidableEq, Repr

/-- `DTMF_MS` has no default (rule R8): a free value. -/
opaque Config.dtmfMs : BitVec 16

/-- `BEEP_MS` has no default (rule R8): a free value. -/
opaque Config.beepMs : BitVec 16

/-- `BEEP_LOW_MS` has no default (rule R8): a free value. -/
opaque Config.beepLowMs : BitVec 16

/-- `TUNE_MS` has no default (rule R8): a free value. -/
opaque Config.tuneMs : BitVec 16

/-- The pins in clock period `n` when no trace is placed: the reset pin in bit 7, `IN[6:0]` below it. The environment
may present any value (`93_implementation_defined.md` U10), so this is a free value (log entry 5). -/
opaque Config.freePins : Nat → BitVec 8

/-- The code that `PLAY_ADVANCE` returns from a play index that names no cell (rule R200 with an index of 31), read in
clock period `n`. There is no such cell (rules R35, R61), so no rule states its content: a free value (log entry 12). -/
opaque Config.absentCell : Nat → Code

/-- The build of rule R8's defaults; the four tone lengths, which have none, stay free (log entry 2). -/
def Config.build : Params where
  reversed := false
  pulseAssert := true
  etPerMs := 1
  dtmfMs := Config.dtmfMs
  beepMs := Config.beepMs
  beepLowMs := Config.beepLowMs
  tuneMs := Config.tuneMs

end Sys2Proof
end

