-- ==== Sys2Proof/Machine/Constants.lean ====
section
/-! DEFINITION. The named constants of rules R7 and R8 that Machine/Literals.lean does not hold, and the constants derived
from them (rule R9). The literals are
the document's and are not audited against the repository (rule R343). -/

namespace Sys2Proof

/-- `DEB_RUN`: identical newest samples a level change needs (rule R7). The masks below say it again in their low bits
(`test_masks_name_debRun`), as the document's literals do. -/
def debRun : Nat := 3

/-- `DEB_MASK` = `11000111`: the history bits that take part in the comparison (rule R7). -/
def debMask : BitVec histW := 0xC7

/-- `DEB_RISE` = `00000111`: the masked history that makes the level go high (rule R7). -/
def debRise : BitVec histW := 0x07

/-- `DEB_FALL` = `11000000`: the masked history that makes the level go low (rule R8, decision D7). -/
def debFall : BitVec histW := 0xC0

/-- `SAMPLE_US`: microseconds from one sample tick to the next (rule R7). -/
def sampleUs : Nat := 100

/-- `CONFIRM_MS` (rule R7). -/
def confirmMs : Nat := 500

/-- `HOLD_MS` (rule R7). -/
def holdMs : Nat := 2000

/-- `ESC_LEVELS`: the number of escalation thresholds (rule R7). -/
def escLevels : BitVec 2 := 3

/-- `TALLY_MIN`: the smallest valid tally (rule R7). -/
def tallyMin : BitVec 4 := 1

/-- `TALLY_MAX`: the largest valid tally (rule R7). -/
def tallyMax : BitVec 4 := 10

/-- `DIALOUT_TONE_MS` (rule R7). -/
def dialoutToneMs : BitVec 16 := 200

/-- `DIALOUT_GAP_MS` (rule R7). -/
def dialoutGapMs : BitVec 16 := 200

/-- `DIAL_ASSERT`: the dial-active line is asserted low (rule R7). -/
def dialAssert : Bool := false

/-- `CODE_STAR` (rules R7, R98). -/
def codeStar : Code := 10

/-- `CODE_POUND` (rules R7, R98). -/
def codePound : Code := 11

/-- `CODE_MAX_VALID`: the largest code dial-out plays (rule R7). -/
def codeMaxValid : Code := 11

/-- `BEEP`, the confirmation beep (rules R98, R99). -/
def codeBeep : Code := 12

/-- `BEEP_LOW`, the low beep (rules R98, R99). -/
def codeBeepLow : Code := 13

/-- `TUNE_ASC`, the ascending tone (rules R98, R99). -/
def codeTuneAsc : Code := 14

/-- `TUNE_DESC`, the descending tone (rules R98, R99). -/
def codeTuneDesc : Code := 15

/-- `OFF`: silence as a tone, "unset" as a slot cell (rule R98). -/
def codeOff : Code := 16

/-- `POS_STAR` (rule R8, decision D16). -/
def posStar : Code := 1

/-- `POS_POUND` (rule R8, decision D16). -/
def posPound : Code := 2

/-- `POS_REDIAL` (rule R8, decision D16). -/
def posRedial : Code := 3

/-- `SLOT7_DIGIT` (rule R8, decision D16). -/
def slot7Digit : Code := 0

/-- `M_DIAL` (rule R100). -/
def mDial : BitVec 3 := 0

/-- `M_L1` (rule R100). -/
def mL1 : BitVec 3 := 1

/-- `M_L2` (rule R100). -/
def mL2 : BitVec 3 := 2

/-- `M_L3` (rule R100). -/
def mL3 : BitVec 3 := 3

/-- `M_PROG` (rule R100). -/
def mProg : BitVec 3 := 4

/-- `CLASS_4S`, the one duration class the block arms (rule R96). -/
def class4s : BitVec 3 := 3

/-- `WDT_CLASS`: the class of the inactivity watchdog, 4 s (rule R7). -/
def wdtClass : BitVec 3 := class4s

/-- A slot with every cell "unset" (rules R32, R41). -/
def slotOff : Slot := Vector.replicate slotCap codeOff

/-- `CONFIRM_TICKS` = `CONFIRM_MS` × 1000 / `SAMPLE_US` (rule R9). -/
def confirmTicks : Nat := confirmMs * 1000 / sampleUs

/-- `HOLD_TICKS` = `HOLD_MS` × `ET_PER_MS` (rule R9). -/
def Params.holdTicks (p : Params) : Nat := holdMs * p.etPerMs

/-- Rule R9: `ET_PER_MS` is a positive integer and both derived constants fit `CNT_W` bits below saturation; "a model
must refuse parameter values that break this". -/
def Params.valid (p : Params) : Bool :=
  decide (1 ≤ p.etPerMs) && decide (p.holdTicks ≤ 65534) && decide (confirmTicks ≤ 65534)

end Sys2Proof
end

