-- ==== Sys2Proof/Machine/State.lean ====
section
/-! DEFINITION. The state of the block, as plain data: the registers of the four sub-blocks (rules R21 to R40), the
Persistent Store beside them (rule R41), and the model's own fields (log entries 1, 4, 5, 6). Then why a step can stop,
and the state after reset (rule R320). -/

namespace Sys2Proof.Machine

/-- One `debounce_filter` instance (rules R21 to R23). -/
structure DbLine where
  /-- `db[L].hist`: bit 0 the newest sample, the highest bit the oldest (rule R21) -/
  hist : BitVec histW
  /-- `db[L].level`: the stable raw level, `true` for high (rule R22) -/
  level : Bool
  /-- `db[L].changed`: the flag of the last sample (rule R23) -/
  changed : Bool
deriving DecidableEq, Repr

/-- The registers of `pulse_counter` (rules R24 to R30). -/
structure PulseCounter where
  /-- `pc.tally` (rule R24) -/
  tally : BitVec 4
  /-- `pc.digit` (rule R25) -/
  digit : BitVec 4
  /-- `pc.digit_valid` (rule R25) -/
  digitValid : Bool
  /-- `pc.pulse_seen` (rule R26) -/
  pulseSeen : Bool
  /-- `pc.sf_cnt`, the hold counter (rule R27) -/
  sfCnt : BitVec 16
  /-- `pc.sf_run` (rule R28) -/
  sfRun : Bool
  /-- `pc.esc`, the number of thresholds that have fired (rule R29) -/
  esc : BitVec 2
  /-- `pc.esc_armed` (rule R30) -/
  escArmed : Bool
deriving DecidableEq, Repr

/-- The registers of `dial_command_fsm` (rules R31 to R35). -/
structure DialFsm where
  /-- `fsm.menu` (rules R31, R100) -/
  menu : BitVec 3
  /-- `fsm.pend[0..29]`, PendingNumber (rule R32) -/
  pend : Slot
  /-- `fsm.pend_len` (rule R32) -/
  pendLen : BitVec 5
  /-- `fsm.target` (rule R33) -/
  target : BitVec 3
  /-- `fsm.rd[0..29]`, slot 0, the redial slot (rule R34) -/
  rd : Slot
  /-- `fsm.pb[0..29]`, the play buffer (rule R35) -/
  pb : Slot
  /-- `fsm.play_idx` (rule R35) -/
  playIdx : BitVec 5
deriving DecidableEq, Repr

/-- `sch.phase`, typed as the six-value enumeration rule R36 allows (rule R101; log entry 17). -/
inductive Phase where
  | sleep
  | confirm
  | gesture
  | tone
  | playTone
  | playGap
deriving DecidableEq, Repr

/-- The registers of `event_scheduler` (rules R36 to R40). -/
structure Scheduler where
  /-- `sch.phase`, the block's program counter (rule R36) -/
  phase : Phase
  /-- `sch.ret_gesture` (rule R37) -/
  retGesture : Bool
  /-- `sch.cf_cnt`, the confirm counter (rule R38) -/
  cfCnt : BitVec 16
  /-- `sch.wake_timeout`, the wake-reason cell (rule R39) -/
  wakeTimeout : Bool
  /-- `sch.wdt_armed` (rule R40) -/
  wdtArmed : Bool
deriving DecidableEq, Repr

/-- `pc_out[1:0]`, the outcome of the `PC_STEP` of a clock (rule R104). -/
inductive PcOut where
  | outNone
  | outPulse
  | outEsc
  | outEnd
deriving DecidableEq, Repr

/-- The action `dial_command_fsm` returns for one event (rules R106, R180). -/
inductive Action where
  | none
  | tone (code : Code) (ms : BitVec 16)
  | dialout (slot : BitVec 3)
deriving DecidableEq, Repr

/-- One output command (rule R95); `CMD_NONE` is never a member of a command list. -/
inductive Command where
  | tone (code : Code) (ms : BitVec 16)
  | tsInit
  | arm (cls : BitVec 3)
  | disarm
  | sleep
  | stRead (slot : BitVec 3)
  | stWrite (slot : BitVec 3) (data : Slot)
deriving DecidableEq, Repr

/-- The Persistent Store's cells by address, one cell (5 bits, zero-extended) in each byte: strictly rising addresses,
and no entry equal to what an unlisted address reads as (rule R41; log entry 14). -/
abbrev Memory := List Host.Cell

/-- The whole state. -/
structure State where
  /-- `db[DIAL]` -/
  dbDial : DbLine
  /-- `db[PULSE]` -/
  dbPulse : DbLine
  /-- `pc.*` -/
  pc : PulseCounter
  /-- `fsm.*` -/
  fsm : DialFsm
  /-- `sch.*` -/
  sch : Scheduler
  /-- `PS[1..7][0..29]`, state of the environment that a model carries beside the block's (rules R20, R41) -/
  ps : Memory
  /-- the model's own: the build's parameters, which no step changes (log entry 1) -/
  par : Params
  /-- the model's own: the commands of the present clock period, in list order (rule R10; log entry 6) -/
  out : List Command
  /-- the model's own: the wire `pc_out` in the present clock period (rule R104; log entry 6) -/
  pcOut : PcOut
  /-- the model's own: the wire `ACT` in the present clock period (rule R106; log entry 6) -/
  act : Action
  /-- the model's own: the words the environment presents in the clock periods to come (rule R10; log entry 4) -/
  input : List PortWord
  /-- the model's own: how many clock periods have passed, the index of the free values (log entries 5, 12) -/
  clock : Nat
deriving DecidableEq, Repr

/-- Why a step stops with a fault: it never does. "`step` is a total function; no rule has a fault outcome" (rule R280),
so there is no reason to name. SAFE: the type has no value, and no meaning answers a fault. -/
inductive Fault where
deriving DecidableEq, Repr

/-- Why a step is refused. -/
inductive Refusal where
  /-- raised by an arm of `exec` whose instruction has no meaning yet; SAFE -/
  | notModelled (mnemonic : String)
  /-- raised by `step` when the parameters break rule R9, which tells a model to refuse them. SAFE (log entry 13). -/
  | badParameters
  /-- raised by `step` on a port word that is no instruction's encoding. SAFE (log entry 9). -/
  | undefinedWord (why : Reject)
deriving DecidableEq, Repr

/-- The outcome of an instruction. -/
abbrev Result := Host.Outcome State Fault Refusal

/-- The machine right after `RESET` (rule R320) of the build of rule R8's defaults: the value each of rules R21 to R40
gives, the commands the reset step emits on the port, the store holding `PS0` = all `OFF`, and no trace placed. -/
def State.reset : State where
  dbDial := { hist := BitVec.allOnes histW, level := true, changed := false }
  dbPulse := { hist := 0, level := false, changed := false }
  pc := { tally := 0, digit := 0, digitValid := false, pulseSeen := false,
          sfCnt := 0, sfRun := false, esc := 0, escArmed := false }
  fsm := { menu := mDial, pend := slotOff, pendLen := 0, target := 0, rd := slotOff, pb := slotOff, playIdx := 0 }
  sch := { phase := .sleep, retGesture := false, cfCnt := 0, wakeTimeout := false, wdtArmed := false }
  ps := []
  par := Config.build
  out := [.tsInit, .sleep]
  pcOut := .outNone
  act := .none
  input := []
  clock := 0

end Sys2Proof.Machine
end

