-- ==== Sys2Proof/Machine/Flags.lean ====
section
/-! DEFINITION. The conditions that set the block's one-bit flags (rule R42): the edges of the filter, what an asserted
line is, which tallies are digits. The block has no arithmetic condition codes; saturation is silent (rule R164). -/

namespace Sys2Proof.Machine

/-- The history after one sample: shifted left, the newest sample in bit 0, the oldest dropped (rules R132, R164 (g)). -/
def shiftIn (h : BitVec histW) (r : Bool) : BitVec histW := (h <<< 1) ||| (if r then 1 else 0)

/-- Rule R132, first branch: the level goes high. -/
def rises (h : BitVec histW) (level : Bool) : Bool := (h &&& debMask == debRise) && level == false

/-- Rule R132, second branch: the level goes low. -/
def falls (h : BitVec histW) (level : Bool) : Bool := (h &&& debMask == debFall) && level == true

/-- Rule R132: `db[L].changed` after a sample, and whether the level flips. -/
def flips (h : BitVec histW) (level : Bool) : Bool := rises h level || falls h level

/-- Rule R131: `{HIST_W{level}}`. -/
def histOf (level : Bool) : BitVec histW := if level then BitVec.allOnes histW else 0

/-- Rule R11: the dial-active line is asserted. -/
def dialAsserted (level : Bool) : Bool := level == dialAssert

/-- Rule R11: the pulse line is asserted. -/
def pulseAsserted (p : Params) (level : Bool) : Bool := level == p.pulseAssert

/-- Rule R157: the tallies that resolve to a digit, `pc.digit_valid` after `PC_RESOLVE`. -/
def tallyValid (t : BitVec 4) : Bool := decide (tallyMin ≤ t) && decide (t ≤ tallyMax)

/-- `sat_N(v + 1)` (rules R12, R164): one more, and the largest value stays. -/
def satSucc (n : Nat) (v : BitVec n) : BitVec n := if v = BitVec.allOnes n then v else v + 1

end Sys2Proof.Machine
end

