-- ==== Sys2Proof/Machine/Operands.lean ====
section
/-! DEFINITION. How operands become the values the rules compute with: the digit-code of an `FSMEV` word, the slot of a
dialled digit, the tone of an escalation (rules R99, R105, R107). No operand is scaled or sign-extended (rule R107). -/

namespace Sys2Proof.Machine

/-- Rule R105: the digit-code of `fsm_ev` = 0 to 7. -/
def digitOfLow (d : BitVec 3) : Code := d.setWidth 5

/-- Rule R105: the digit-code of `fsm_ev` = 8 or 9. -/
def digitOfHigh (d0 : Bool) : Code := if d0 then 9 else 8

/-- `pc.digit` as a digit-code (rules R25, R107): zero-extended. -/
def digitCode (d : BitVec 4) : Code := d.setWidth 5

/-- `SLOT_OF` (rules R62, R184): redial, then digits 4 to 9 to slots 1 to 6, then the digit of slot 7; ★ and # have none. -/
def slotOf (d : Code) : Option (BitVec 3) :=
  if d = posRedial then some 0
  else if 4 ≤ d ∧ d ≤ 9 then some ((d - 3).setWidth 3)
  else if d = slot7Digit then some 7
  else none

/-- The code and length of the tone of escalation `n` (rules R99, R196). -/
def escTone (p : Params) (n : BitVec 2) : Code × BitVec 16 :=
  if n = 1 then (codeBeepLow, p.beepLowMs)
  else if n = 2 then (codeTuneAsc, p.tuneMs)
  else (codeTuneDesc, p.tuneMs)

/-- The menu state of escalation `n` (rule R196). -/
def escMenu (n : BitVec 2) : BitVec 3 :=
  if n = 1 then mL1 else if n = 2 then mL2 else mL3

/-- Rule R157, with `1 ≤ t ≤ 10`: the digit of a valid tally, standard and reversed (rules R158, R159). -/
def digitOfTally (reversed : Bool) (t : BitVec 4) : BitVec 4 :=
  if t = tallyMax then 0 else if reversed then 10 - t else t

/-- `sch.phase` as its three bits (rule R101). -/
def Phase.code : Phase → BitVec 3
  | .sleep => 0
  | .confirm => 1
  | .gesture => 2
  | .tone => 3
  | .playTone => 4
  | .playGap => 5

/-- `pc_out` as its two bits (rule R104). -/
def PcOut.code : PcOut → BitVec 2
  | .outNone => 0
  | .outPulse => 1
  | .outEsc => 2
  | .outEnd => 3

/-- The `ACT` row an action is presented as (rule R106). -/
def Action.toInstr : Action → Instr
  | .none => .actNone
  | .tone code ms => .actTone code ms
  | .dialout slot => .actDialout slot

/-- The `CMD` row a command is presented as (rule R95). -/
def Command.toInstr : Command → Instr
  | .tone code ms => .tone code ms
  | .tsInit => .tsInit
  | .arm cls => .arm cls
  | .disarm => .disarm
  | .sleep => .sleep
  | .stRead slot => .stRead slot
  | .stWrite slot data => .stWrite slot data

end Sys2Proof.Machine
end

