-- ==== Sys2Proof/Machine/Ops.lean ====
section
/-! DEFINITION. The named operations every meaning is made of: the store's cells, the updates of the state, the output
commands, then the procedures of the four sub-blocks under the spec's own names, and last the wake, which is this block's
interrupt entry (rule R291), beside `LOOP_TOP`, its return to the wait (rule R292). -/

namespace Sys2Proof.Machine

/-! ### The Persistent Store (rules R41, R60, R63, R68; log entry 14) -/

/-- What an unlisted cell reads as: `OFF`, the default of `PS0` (rules R8, R41). -/
def Memory.unlisted : BitVec 8 := codeOff.setWidth 8

/-- The address of cell `i` of slot `slot`, `SLOT_CAP × slot + i`: the store's own layout is the platform's (rule R69). -/
def cellAddr (slot : BitVec 3) (i : Nat) : Nat := slotCap * slot.toNat + i

/-- The byte at an address. -/
def Memory.read : Memory → Nat → BitVec 8
  | [], _ => Memory.unlisted
  | (k, v) :: m, a => if k = a then v else Memory.read m a

/-- The store with one byte written, in canonical form. -/
def Memory.write : Memory → Nat → BitVec 8 → Memory
  | [], a, b => if b = Memory.unlisted then [] else [(a, b)]
  | (k, v) :: m, a, b =>
    if k < a then (k, v) :: Memory.write m a b
    else if k = a then if b = Memory.unlisted then m else (a, b) :: m
    else if b = Memory.unlisted then (k, v) :: m else (a, b) :: (k, v) :: m

/-- The store with the codes of a list written from an address on, one after the other. -/
def Memory.writeCells : Memory → Nat → List Code → Memory
  | m, _, [] => m
  | m, a, c :: cs => Memory.writeCells (Memory.write m a (c.setWidth 8)) (a + 1) cs

/-- `MemRead(PS, slot)`: the 30 cells of `PS[slot]` (rules R13, R63). -/
def Memory.readSlot (m : Memory) (slot : BitVec 3) : Slot :=
  Vector.ofFn fun i => (m.read (cellAddr slot i.val)).setWidth 5

/-- `MemWrite(PS, slot, list)`: all 30 cells of `PS[slot]` replaced (rules R13, R63). -/
def Memory.writeSlot (m : Memory) (slot : BitVec 3) (data : Slot) : Memory :=
  m.writeCells (cellAddr slot 0) data.toList

/-- The canonical form: strictly rising addresses, each the address of a cell of a slot from 1 on, each byte a 5-bit code, and
none what an unlisted address reads as. -/
abbrev Memory.wf (m : Memory) : Prop :=
  m.Pairwise (fun c d => c.1 < d.1) ∧
    ∀ c ∈ m, slotCap ≤ c.1 ∧ c.1 < slotCap * nSlots ∧ c.2.toNat < 2 ^ codeW ∧ c.2 ≠ Memory.unlisted

/-! ### Updates of the state -/

/-- The instance of a line. -/
def State.db (s : State) : Line → DbLine
  | .dial => s.dbDial
  | .pulse => s.dbPulse

/-- The state with one instance replaced. -/
def State.setDb (s : State) (l : Line) (x : DbLine) : State :=
  match l with
  | .dial => { s with dbDial := x }
  | .pulse => { s with dbPulse := x }

/-- The state with `pc.*` replaced. -/
def State.setPc (s : State) (x : PulseCounter) : State := { s with pc := x }

/-- The state with `fsm.*` replaced. -/
def State.setFsm (s : State) (x : DialFsm) : State := { s with fsm := x }

/-- The state with `sch.*` replaced. -/
def State.setSch (s : State) (x : Scheduler) : State := { s with sch := x }

/-- `sch.phase <- PH_X`, the block's control transfer (rules R13, R250). -/
def State.setPhase (s : State) (x : Phase) : State := { s with sch := { s.sch with phase := x } }

/-- The state with the store replaced. -/
def State.setPs (s : State) (x : Memory) : State := { s with ps := x }

/-- The state with the wire `pc_out` driven. -/
def State.setPcOut (s : State) (x : PcOut) : State := { s with pcOut := x }

/-- The state with the wire `ACT` driven. -/
def State.setAct (s : State) (x : Action) : State := { s with act := x }

/-- `emit C(args)`: one command appended to the list (rule R13). -/
def State.emit (s : State) (c : Command) : State := { s with out := s.out ++ [c] }

/-! ### The output commands (rules R94, R95, R296 to R298) -/

/-- `TONE code, ms` (rule R296). -/
def issueTone (code : Code) (ms : BitVec 16) (s : State) : State := s.emit (.tone code ms)

/-- `TS_INIT` (rule R296). -/
def issueTsInit (s : State) : State := s.emit .tsInit

/-- `ARM class` (rule R297), and the block's record of it: "set with every `ARM` command" (rule R40). -/
def issueArm (cls : BitVec 3) (s : State) : State :=
  (s.emit (.arm cls)).setSch { s.sch with wdtArmed := true }

/-- `DISARM` (rule R297): "cleared with every `DISARM` command" (rule R40). -/
def issueDisarm (s : State) : State :=
  (s.emit .disarm).setSch { s.sch with wdtArmed := false }

/-- `SLEEP` (rules R297, R301). -/
def issueSleep (s : State) : State := s.emit .sleep

/-- `ST_READ slot` (rule R298); the reply is the slot of `s.ps`, which a reader takes directly (rules R63, R97). -/
def issueStRead (slot : BitVec 3) (s : State) : State := s.emit (.stRead slot)

/-- `ST_WRITE slot, data` (rule R298): the store's slot is replaced in the step that emits it (rule R63). -/
def issueStWrite (slot : BitVec 3) (data : Slot) (s : State) : State :=
  (s.emit (.stWrite slot data)).setPs (s.ps.writeSlot slot data)

/-! ### debounce_filter (rules R131 to R133) -/

/-- `DB_INIT` (rule R131): the history filled with the retained level. -/
def dbInit (x : DbLine) : DbLine := { x with hist := histOf x.level, changed := false }

/-- `DB_SAMPLE r` (rule R132). -/
def dbSample (r : Bool) (x : DbLine) : DbLine :=
  let h := shiftIn x.hist r
  if rises h x.level then { hist := h, level := true, changed := true }
  else if falls h x.level then { hist := h, level := false, changed := true }
  else { hist := h, level := x.level, changed := false }

/-- `DB_SAMPLE` at the instance of a line. -/
def sampleLine (l : Line) (r : Bool) (s : State) : State := s.setDb l (dbSample r (s.db l))

/-- `DB_INIT` at the instance of a line. -/
def initLine (l : Line) (s : State) : State := s.setDb l (dbInit (s.db l))

/-! ### pulse_counter (rules R151 to R161) -/

/-- `PC_ASSERT` (rule R151). -/
def pcAssert (x : PulseCounter) : PulseCounter := { x with sfCnt := 0, sfRun := true }

/-- `PC_START m` (rule R152); the hold counter goes on. -/
def pcStart (m : Bool) (x : PulseCounter) : PulseCounter :=
  { x with tally := 0, digit := 0, digitValid := false, pulseSeen := false, esc := 0, escArmed := m }

/-- `PC_ETICK` (rule R153). -/
def pcEtick (x : PulseCounter) : PulseCounter :=
  if x.sfRun then { x with sfCnt := satSucc 16 x.sfCnt } else x

/-- `PC_STOP` (rule R160). -/
def pcStop (x : PulseCounter) : PulseCounter := { x with sfRun := false, escArmed := false }

/-- `PC_RESOLVE` (rules R157 to R159). -/
def pcResolve (p : Params) (x : PulseCounter) : PulseCounter :=
  if tallyValid x.tally then { x with digitValid := true, digit := digitOfTally p.reversed x.tally }
  else { x with digitValid := false, digit := 0 }

/-- `PC_STEP` (rules R154 to R156) on the wires `dial_level`, `pulse_level`, `pulse_changed`: the end of the gesture, then
a pulse, then a threshold; the first that holds is taken. -/
def pcStep (p : Params) (dialLevel pulseLevel pulseChanged : Bool) (x : PulseCounter) : PulseCounter × PcOut :=
  if !dialAsserted dialLevel then (pcResolve p (pcStop x), .outEnd)
  else if pulseChanged && pulseAsserted p pulseLevel then
    ({ x with tally := satSucc 4 x.tally, pulseSeen := true, escArmed := false }, .outPulse)
  else if x.escArmed && decide (p.holdTicks ≤ x.sfCnt.toNat) then
    ({ x with esc := x.esc + 1, sfCnt := 0, escArmed := if x.esc + 1 = escLevels then false else x.escArmed }, .outEsc)
  else (x, .outNone)

/-- `PC_STEP` in a state, with the wires of rule R150 taken from the two filter instances. -/
def stepCounter (s : State) : State :=
  let r := pcStep s.par s.dbDial.level s.dbPulse.level s.dbPulse.changed s.pc
  (s.setPc r.1).setPcOut r.2

/-! ### dial_command_fsm (rules R181 to R200) -/

/-- `MENU_EFF` (rule R181). -/
def menuEff (f : DialFsm) : BitVec 3 := if f.menu ≤ 4 then f.menu else mDial

/-- `CLEAR_PEND` (rule R182). -/
def clearPend (f : DialFsm) : DialFsm := { f with pend := slotOff, pendLen := 0 }

/-- `APPEND_PEND c` (rule R183), called with room. -/
def appendPend (c : Code) (f : DialFsm) : DialFsm :=
  { f with pend := f.pend.setIfInBounds f.pendLen.toNat c, pendLen := f.pendLen + 1 }

/-- Whether PendingNumber has room: `fsm.pend_len` < `SLOT_CAP` (rules R183, R186, R194). -/
def hasRoom (f : DialFsm) : Bool := decide (f.pendLen.toNat < slotCap)

/-- Dial, any digit (rule R186). -/
def digitInDial (p : Params) (d : Code) (f : DialFsm) : DialFsm × Action :=
  let g := if hasRoom f then appendPend d f else clearPend f
  ({ g with target := 0, menu := mDial }, .tone d p.dtmfMs)

/-- SpecialL1 (rules R187 to R190). The recursion of rule R187 always lands in the Dial row, one level deep. -/
def digitInL1 (p : Params) (d : Code) (f : DialFsm) : DialFsm × Action :=
  let g := { f with menu := mDial }
  if d = posStar then digitInDial p codeStar g
  else if d = posPound then digitInDial p codePound g
  else if d = posRedial then (g, .dialout 0)
  else match slotOf d with
    | some slot => (g, .dialout slot)
    | none => (g, .none)

/-- SpecialL2 (rules R191, R192). -/
def digitInL2 (p : Params) (d : Code) (f : DialFsm) : DialFsm × Action :=
  match slotOf d with
  | some slot => ({ clearPend f with target := slot, menu := mProg }, .none)
  | none => ({ f with menu := mDial }, .tone codeTuneDesc p.tuneMs)

/-- SpecialL3 (rule R193). -/
def digitInL3 (f : DialFsm) : DialFsm × Action := ({ f with menu := mDial }, .none)

/-- ProgramSpeedDial (rules R194, R195). -/
def digitInProg (p : Params) (d : Code) (f : DialFsm) : DialFsm × Action :=
  if hasRoom f then (appendPend d f, .tone codeBeepLow p.beepLowMs)
  else ({ clearPend f with menu := mDial }, .tone codeTuneDesc p.tuneMs)

/-- `FSM_DIGIT d` (rule R185): dispatch on the effective menu state. -/
def fsmDigit (p : Params) (d : Code) (f : DialFsm) : DialFsm × Action :=
  let m := menuEff f
  if m = mDial then digitInDial p d f
  else if m = mL1 then digitInL1 p d f
  else if m = mL2 then digitInL2 p d f
  else if m = mL3 then digitInL3 f
  else digitInProg p d f

/-- A digit event in a state: the registers and the action wire. -/
def digitEvent (d : Code) (s : State) : State :=
  let r := fsmDigit s.par d s.fsm
  (s.setFsm r.1).setAct r.2

/-- `ESC n` (rule R196) in a state: the registers and the action wire. -/
def escEvent (n : BitVec 2) (s : State) : State :=
  let t := escTone s.par n
  (s.setFsm { s.fsm with menu := escMenu n }).setAct (.tone t.1 t.2)

/-- `SD_APPEND(slot, seq)` (rule R198): the redial slot unconditionally, a persisted slot only when it differs. -/
def sdAppend (slot : BitVec 3) (seq : Slot) (s : State) : State :=
  if slot = 0 then s.setFsm { s.fsm with rd := seq }
  else if s.ps.readSlot slot = seq then issueStRead slot s
  else issueStWrite slot seq (issueStRead slot s)

/-- `FSM_TIMEOUT` (rule R197) in a state: the commit, the registers and the action wire. -/
def timeoutEvent (s : State) : State :=
  let t := sdAppend s.fsm.target s.fsm.pend s
  let u := t.setFsm (clearPend { t.fsm with menu := mDial })
  u.setAct (if s.fsm.menu = mProg then .tone codeBeep s.par.beepMs else .none)

/-- The 30 cells of a logical slot (rules R60, R62): slot 0 is `fsm.rd`, the others are the store's. -/
def slotContent (s : State) (slot : BitVec 3) : Slot :=
  if slot = 0 then s.fsm.rd else s.ps.readSlot slot

/-- `SD_LOAD slot` (rule R199): the whole slot into the play buffer, a persisted one by a store read. -/
def sdLoad (slot : BitVec 3) (s : State) : State :=
  let t := if slot = 0 then s else issueStRead slot s
  t.setFsm { s.fsm with pb := slotContent s slot, playIdx := 0 }

/-- The loop of `PLAY_ADVANCE` (rule R200), at most `n` turns: the first index from `i` on whose cell is a dialable code,
or the index at which the loop ends without one. -/
def playScan (pb : Slot) : Nat → Nat → Nat
  | 0, i => i
  | n + 1, i => if h : i < slotCap then if pb[i] ≤ codeMaxValid then i else playScan pb n (i + 1) else i

/-! ### event_scheduler (rules R231 to R247) -/

/-- `LOOP_TOP` (rule R231): arm the watchdog if PendingNumber is non-empty, sleep. -/
def loopTop (s : State) : State :=
  let t := if s.fsm.pendLen = 0 then s else issueArm wdtClass s
  (issueSleep t).setPhase .sleep

/-- `fsm.pb[j]`. No cell stands at `SLOT_CAP` and above (rules R35, R61), so what a read there returns is a free value
(log entry 12). -/
def playCell (s : State) (j : Nat) : Code := if h : j < slotCap then s.fsm.pb[j] else Config.absentCell s.clock

/-- `PLAY_NEXT` with `PLAY_ADVANCE` (rules R200, R242): the index at which the search ends says that the buffer has been
played, or names the code to play. -/
def playNext (s : State) : State :=
  let j := playScan s.fsm.pb slotCap s.fsm.playIdx.toNat
  let t := s.setFsm { s.fsm with playIdx := BitVec.ofNat 5 j }
  if j = slotCap then loopTop t
  else (issueTone (playCell s j) dialoutToneMs t).setPhase .playTone

/-- A tone is requested and the block waits for it (rules R242, R243): `r` is `sch.ret_gesture`. -/
def startTone (code : Code) (ms : BitVec 16) (r : Bool) (s : State) : State :=
  let t := issueTone code ms s
  t.setSch { t.sch with retGesture := r, phase := .tone }

/-- `DO_ACT` (rule R242). -/
def doAct (a : Action) (s : State) : State :=
  match a with
  | .none => loopTop s
  | .tone code ms => startTone code ms false s
  | .dialout slot => playNext (sdLoad slot s)

/-- `GESTURE_START` (rule R238). -/
def gestureStart (s : State) : State :=
  (s.setPc (pcStart (menuEff s.fsm == mDial) s.pc)).setPhase .gesture

/-- `ABANDON` (rule R239). -/
def abandon (s : State) : State := loopTop (s.setPc (pcStop s.pc))

/-- `GESTURE_END` (rule R241): dispatch a valid digit, discard an invalid gesture silently. -/
def gestureEnd (s : State) : State :=
  if s.pc.digitValid then
    let t := digitEvent (digitCode s.pc.digit) s
    doAct t.act t
  else loopTop s

/-- `ESCALATE` (rule R243): the menu goes up, its tone is requested, and the gesture goes on after it. -/
def escalate (s : State) : State :=
  let t := escTone s.par s.pc.esc
  startTone t.1 t.2 true (escEvent s.pc.esc s)

/-- `TICK d p` in `PH_CONFIRM` (rule R237). -/
def tickConfirm (d : Bool) (s : State) : State :=
  let t := sampleLine .dial d s
  let u := t.setSch { t.sch with cfCnt := satSucc 16 t.sch.cfCnt }
  let lvl := u.dbDial.level
  if u.dbDial.changed && dialAsserted lvl then
    (u.setSch { u.sch with cfCnt := 0 }).setPc (pcAssert u.pc)
  else if u.dbDial.changed then abandon u
  else if u.sch.cfCnt.toNat = confirmTicks then
    if dialAsserted lvl then gestureStart u else abandon u
  else u

/-- `TICK d p` in `PH_GESTURE` (rule R240). -/
def tickGesture (d p : Bool) (s : State) : State :=
  let t := stepCounter (sampleLine .pulse p (sampleLine .dial d s))
  match t.pcOut with
  | .outEnd => gestureEnd t
  | .outEsc => escalate t
  | .outPulse => t
  | .outNone => t

/-! ### The wake: this block's interrupt entry (rules R234 to R236, R291) -/

/-- `TIMEOUT_PATH` (rule R235). -/
def timeoutPath (s : State) : State :=
  let t := timeoutEvent s
  doAct t.act t

/-- `LINE_PATH` (rule R236). -/
def linePath (s : State) : State :=
  let t := initLine .pulse (initLine .dial s)
  (t.setPc { t.pc with sfRun := false, sfCnt := 0 }).setSch { t.sch with cfCnt := 0, phase := .confirm }

/-- `WAKE` (rule R234): disarm if armed, read and clear the wake reason in one action, take its path. -/
def wake (s : State) : State :=
  let t := if s.sch.wdtArmed then issueDisarm s else s
  let u := t.setSch { t.sch with wakeTimeout := false }
  if t.sch.wakeTimeout then timeoutPath u else linePath u

/-! ### Reset (rule R320) -/

/-- `RESET`: every register of rules R21 to R40 to its reset value, then `TS_INIT` and `SLEEP`. The store keeps its
content (rule R322). -/
def resetBlock (s : State) : State :=
  let t : State := { s with
    dbDial := { hist := BitVec.allOnes histW, level := true, changed := false }
    dbPulse := { hist := histOf (!s.par.pulseAssert), level := !s.par.pulseAssert, changed := false }
    pc := { tally := 0, digit := 0, digitValid := false, pulseSeen := false,
            sfCnt := 0, sfRun := false, esc := 0, escArmed := false }
    fsm := { menu := mDial, pend := slotOff, pendLen := 0, target := 0, rd := slotOff, pb := slotOff, playIdx := 0 }
    sch := { phase := .sleep, retGesture := false, cfCnt := 0, wakeTimeout := false, wdtArmed := false } }
  issueSleep (issueTsInit t)

end Sys2Proof.Machine
end

