-- ==== Sys2Proof/Machine/Actions.lean ====
section
/-! DEFINITION. The meanings of an action word at the scheduler: `DO_ACT` of that action (rules R106, R242). -/

namespace Sys2Proof.Machine

/-- `ACT_NONE` (rule R242): the top of the loop. -/
def execActNone (s : State) : Result := .next (doAct .none s)

/-- `ACT_TONE code, ms` (rule R242): one tone, waited for. A reserved code, 17 to 31, which no rule gives an effect as a
tone (rules R98, R296), is played like any other: the model's choice (DESIGN CHOICE, log entry 22). -/
def execActTone (code : Code) (ms : BitVec 16) (s : State) : Result := .next (doAct (.tone code ms) s)

/-- `ACT_DIALOUT slot` (rules R199 to R201, R242): the slot is loaded and its first dialable code played. -/
def execActDialout (slot : BitVec 3) (s : State) : Result := .next (doAct (.dialout slot) s)

/-- `act_kind` = 3, "reserved, never produced" (rule R106): absorbed by ignoring it, as the reserved words of the other
inner ports are (rules R108, R280, R284 and `93_implementation_defined.md` U8; DEDUCED, log entry 10). -/
def execActReserved (_rest : BitVec 24) (s : State) : Result := .next s

end Sys2Proof.Machine
end

