-- ==== Sys2Proof/Machine/Commands.lean ====
section
/-! DEFINITION. The meanings of the command port's words: the block issues the command, and what this does to the state a
model carries happens with it (rules R40, R63, R94 to R97, R296 to R298; log entry 15). -/

namespace Sys2Proof.Machine

/-- `CMD_NONE` (rule R95): the port is idle, no call; never a member of a command list. -/
def execCmdNone (s : State) : Result := .next s

/-- `TONE code, ms` (rule R296). A reserved code, 17 to 31, which no rule gives an effect as a tone (rules R98, R296), is
emitted like any other: the model's choice (DESIGN CHOICE, log entry 22). -/
def execTone (code : Code) (ms : BitVec 16) (s : State) : Result := .next (issueTone code ms s)

/-- `TS_INIT` (rule R296). -/
def execTsInit (s : State) : Result := .next (issueTsInit s)

/-- `ARM class` (rules R40, R297). The classes 5 to 7 are "reserved and never emitted" (rule R96): ignored (DEDUCED, log
entry 10). -/
def execArm (cls : BitVec 3) (s : State) : Result := .next (if cls ≤ 4 then issueArm cls s else s)

/-- `DISARM` (rules R40, R297). -/
def execDisarm (s : State) : Result := .next (issueDisarm s)

/-- `SLEEP` (rule R297). -/
def execSleep (s : State) : Result := .next (issueSleep s)

/-- `ST_READ slot`, slot 1 to 7 (rules R63, R298). Slot 0, "never emitted" (rule R108; U8), names no slot of the store
("There is no `PS[0]`", rule R41) and is ignored (DEDUCED, log entry 11). -/
def execStRead (slot : BitVec 3) (s : State) : Result := .next (if slot = 0 then s else issueStRead slot s)

/-- `ST_WRITE slot, data`, slot 1 to 7 (rules R63, R298). Slot 0 is ignored, as for `ST_READ` (DEDUCED, log entry 11). -/
def execStWrite (slot : BitVec 3) (data : Slot) (s : State) : Result :=
  .next (if slot = 0 then s else issueStWrite slot data s)

end Sys2Proof.Machine
end

