-- ==== Sys2Proof/Machine/Counter.lean ====
section
/-! DEFINITION. The meanings of the operations of `pulse_counter` at its port (rules R104, R151 to R161). Each drives the
wire `pc_out`, with `OUT_NONE` but for `PC_STEP`. -/

namespace Sys2Proof.Machine

/-- `PC_HOLD` (rule R161). -/
def execPcHold (_pcArg : Bool) (s : State) : Result := .next (s.setPcOut .outNone)

/-- `PC_ASSERT` (rule R151). -/
def execPcAssert (_pcArg : Bool) (s : State) : Result := .next ((s.setPc (pcAssert s.pc)).setPcOut .outNone)

/-- `PC_START m` (rule R152). -/
def execPcStart (m : Bool) (s : State) : Result := .next ((s.setPc (pcStart m s.pc)).setPcOut .outNone)

/-- `PC_ETICK` (rule R153). -/
def execPcEtick (_pcArg : Bool) (s : State) : Result := .next ((s.setPc (pcEtick s.pc)).setPcOut .outNone)

/-- `PC_STEP` (rules R154 to R156), on the wires of the two filter instances. -/
def execPcStep (_pcArg : Bool) (s : State) : Result := .next (stepCounter s)

/-- `PC_RESOLVE` issued alone (rule R157). -/
def execPcResolve (_pcArg : Bool) (s : State) : Result := .next ((s.setPc (pcResolve s.par s.pc)).setPcOut .outNone)

/-- `PC_STOP` (rule R160). -/
def execPcStop (_pcArg : Bool) (s : State) : Result := .next ((s.setPc (pcStop s.pc)).setPcOut .outNone)

/-- The reserved `pc_op` = 7 acts as `PC_HOLD` (rules R104, R108, R161). -/
def execPcReserved (_pcArg : Bool) (s : State) : Result := .next (s.setPcOut .outNone)

end Sys2Proof.Machine
end

