-- ==== Sys2Proof/Machine/Events.lean ====
section
/-! DEFINITION. The meanings of the block's own input events: `RESET`, `NOP`, `IRQW`, `IRQL`, `TDONE`, `ETICK`, `TICK`
(rules R232, R233, R237, R240, R244 to R248, R320). -/

namespace Sys2Proof.Machine

/-- `RESET` (rules R93, R320). -/
def execReset (s : State) : Result := .next (resetBlock s)

/-- `NOP` (rule R246): the empty event list. -/
def execNop (_rawDial _rawPulse : Bool) (s : State) : Result := .next s

/-- `IRQW` (rule R232): the reason is latched in every phase; a sleeping block wakes. -/
def execIrqw (s : State) : Result :=
  let t := s.setSch { s.sch with wakeTimeout := true }
  match s.sch.phase with
  | .sleep => .next (wake t)
  | .confirm => .next t
  | .gesture => .next t
  | .tone => .next t
  | .playTone => .next t
  | .playGap => .next t

/-- `IRQL` (rule R233): a sleeping block wakes; in every other phase the event is ignored. -/
def execIrql (s : State) : Result :=
  match s.sch.phase with
  | .sleep => .next (wake s)
  | .confirm => .next s
  | .gesture => .next s
  | .tone => .next s
  | .playTone => .next s
  | .playGap => .next s

/-- `TDONE` (rule R244): the tone that was waited for has ended. -/
def execTdone (s : State) : Result :=
  match s.sch.phase with
  | .tone =>
    if s.sch.retGesture then .next (s.setSch { s.sch with retGesture := false, phase := .gesture })
    else .next (loopTop s)
  | .playTone => .next ((issueTone codeOff dialoutGapMs s).setPhase .playGap)
  | .playGap => .next (playNext (s.setFsm { s.fsm with playIdx := s.fsm.playIdx + 1 }))
  | .sleep => .next s
  | .confirm => .next s
  | .gesture => .next s

/-- `ETICK` (rule R245): `PC_ETICK` in every phase. -/
def execEtick (s : State) : Result := .next (s.setPc (pcEtick s.pc))

/-- `TICK d p`: rule R237 in `PH_CONFIRM`, rule R240 in `PH_GESTURE`, ignored elsewhere (rule R247). -/
def execTick (d p : Bool) (s : State) : Result :=
  match s.sch.phase with
  | .confirm => .next (tickConfirm d s)
  | .gesture => .next (tickGesture d p s)
  | .sleep => .next s
  | .tone => .next s
  | .playTone => .next s
  | .playGap => .next s

end Sys2Proof.Machine
end

