-- ==== Sys2Proof/Machine/Filter.lean ====
section
/-! DEFINITION. The meanings of the operations of one `debounce_filter` instance (rules R103, R131 to R133). -/

namespace Sys2Proof.Machine

/-- `DB_HOLD` (rule R133): no register of the instance changes; `changed` is kept. -/
def execDbHold (_l : Line) (_dbIn : Bool) (s : State) : Result := .next s

/-- `DB_SAMPLE r` (rule R132). -/
def execDbSample (l : Line) (r : Bool) (s : State) : Result := .next (sampleLine l r s)

/-- `DB_INIT` (rule R131). -/
def execDbInit (l : Line) (_dbIn : Bool) (s : State) : Result := .next (initLine l s)

/-- The reserved `db_op` = 3 acts as `DB_HOLD` (rules R103, R108, R133). -/
def execDbReserved (_l : Line) (_dbIn : Bool) (s : State) : Result := .next s

end Sys2Proof.Machine
end

