-- ==== Sys2Proof/Machine/Menu.lean ====
section
/-! DEFINITION. The meanings of the events of `dial_command_fsm` at its port (rules R105, R180 to R197): the registers,
the store commands of a commit, and the action returned on the wire `ACT`. The scheduler plays that action by an `ACT`
operation of its own (rules R180, R242; log entry 16). -/

namespace Sys2Proof.Machine

/-- `DIGIT d`, d in 0 to 7 (rule R185). -/
def execDigit0to7 (d : BitVec 3) (s : State) : Result := .next (digitEvent (digitOfLow d) s)

/-- `DIGIT d`, d = 8 or 9 (rule R185). -/
def execDigit8to9 (d0 : Bool) (s : State) : Result := .next (digitEvent (digitOfHigh d0) s)

/-- `STAR`, digit-code 10 (rule R185). -/
def execStar (s : State) : Result := .next (digitEvent codeStar s)

/-- `POUND`, digit-code 11 (rule R185). -/
def execPound (s : State) : Result := .next (digitEvent codePound s)

/-- `fsm_ev` = 12 to 15: ignored, no state change, `ACT_NONE` (rules R105, R108). -/
def execFsmevReserved12to15 (_low : BitVec 2) (s : State) : Result := .next (s.setAct .none)

/-- `TIMEOUT` (rule R197). -/
def execTimeout (s : State) : Result := .next (timeoutEvent s)

/-- `ESC 1` (rule R196). -/
def execEsc1 (s : State) : Result := .next (escEvent 1 s)

/-- `ESC 2` (rule R196). -/
def execEsc2 (s : State) : Result := .next (escEvent 2 s)

/-- `ESC 3` (rule R196). -/
def execEsc3 (s : State) : Result := .next (escEvent 3 s)

/-- `fsm_ev` = 20 to 23: ignored, no state change, `ACT_NONE` (rules R105, R108). -/
def execFsmevReserved20to23 (_low : BitVec 2) (s : State) : Result := .next (s.setAct .none)

/-- `fsm_ev` = 24 to 31: ignored, no state change, `ACT_NONE` (rules R105, R108). -/
def execFsmevReserved24to31 (_low : BitVec 3) (s : State) : Result := .next (s.setAct .none)

end Sys2Proof.Machine
end

