-- ==== Sys2Proof/Machine/Dispatch.lean ====
section
/-! DEFINITION. One arm per row of the opcode table: the meaning of each instruction. -/

namespace Sys2Proof.Machine

def exec (i : Instr) (s : State) : Host.Outcome State Fault Refusal :=
  match i with
  | .reset => Sys2Proof.Machine.execReset s
  | .nop rawDial rawPulse => Sys2Proof.Machine.execNop rawDial rawPulse s
  | .irqw => Sys2Proof.Machine.execIrqw s
  | .irql => Sys2Proof.Machine.execIrql s
  | .tdone => Sys2Proof.Machine.execTdone s
  | .etick => Sys2Proof.Machine.execEtick s
  | .tick d p => Sys2Proof.Machine.execTick d p s
  | .dbHold l dbIn => Sys2Proof.Machine.execDbHold l dbIn s
  | .dbSample l r => Sys2Proof.Machine.execDbSample l r s
  | .dbInit l dbIn => Sys2Proof.Machine.execDbInit l dbIn s
  | .dbReserved l dbIn => Sys2Proof.Machine.execDbReserved l dbIn s
  | .pcHold pcArg => Sys2Proof.Machine.execPcHold pcArg s
  | .pcAssert pcArg => Sys2Proof.Machine.execPcAssert pcArg s
  | .pcStart m => Sys2Proof.Machine.execPcStart m s
  | .pcEtick pcArg => Sys2Proof.Machine.execPcEtick pcArg s
  | .pcStep pcArg => Sys2Proof.Machine.execPcStep pcArg s
  | .pcResolve pcArg => Sys2Proof.Machine.execPcResolve pcArg s
  | .pcStop pcArg => Sys2Proof.Machine.execPcStop pcArg s
  | .pcReserved pcArg => Sys2Proof.Machine.execPcReserved pcArg s
  | .digit0to7 d => Sys2Proof.Machine.execDigit0to7 d s
  | .digit8to9 d0 => Sys2Proof.Machine.execDigit8to9 d0 s
  | .star => Sys2Proof.Machine.execStar s
  | .pound => Sys2Proof.Machine.execPound s
  | .fsmevReserved12to15 low => Sys2Proof.Machine.execFsmevReserved12to15 low s
  | .timeout => Sys2Proof.Machine.execTimeout s
  | .esc1 => Sys2Proof.Machine.execEsc1 s
  | .esc2 => Sys2Proof.Machine.execEsc2 s
  | .esc3 => Sys2Proof.Machine.execEsc3 s
  | .fsmevReserved20to23 low => Sys2Proof.Machine.execFsmevReserved20to23 low s
  | .fsmevReserved24to31 low => Sys2Proof.Machine.execFsmevReserved24to31 low s
  | .actNone => Sys2Proof.Machine.execActNone s
  | .actTone code ms => Sys2Proof.Machine.execActTone code ms s
  | .actDialout slot => Sys2Proof.Machine.execActDialout slot s
  | .actReserved rest => Sys2Proof.Machine.execActReserved rest s
  | .cmdNone => Sys2Proof.Machine.execCmdNone s
  | .tone code ms => Sys2Proof.Machine.execTone code ms s
  | .tsInit => Sys2Proof.Machine.execTsInit s
  | .arm cls => Sys2Proof.Machine.execArm cls s
  | .disarm => Sys2Proof.Machine.execDisarm s
  | .sleep => Sys2Proof.Machine.execSleep s
  | .stRead slot => Sys2Proof.Machine.execStRead slot s
  | .stWrite slot data => Sys2Proof.Machine.execStWrite slot data s

end Sys2Proof.Machine
end

