-- ==== Sys2Proof/Machine/Clock.lean ====
section
/-! DEFINITION. One clock period: the word the environment presents, the state the period starts from, and the events
of the word applied one after the other (rules R10, R71, R92, R289). -/

namespace Sys2Proof.Machine

/-- The pins of a number: the reset pin in bit 7, `IN[6:0]` below it (rules R91, R93). -/
def pinsOf (v : BitVec 8) : PortWord := .pins (v.getLsbD 7) (v.extractLsb' 0 7)

/-- The word of the present clock period: the next of the trace, or, where none is placed, any pins at all
(`93_implementation_defined.md` U10; log entries 4 and 5). -/
def fetch (s : State) : PortWord :=
  match s.input with
  | w :: _ => w
  | [] => pinsOf (Config.freePins s.clock)

/-- The state in which the events of a period begin: its word is taken, the command port and the two wires are idle. -/
def beginClock (s : State) : State :=
  { s with input := s.input.tail, clock := s.clock + 1, out := [], pcOut := .outNone, act := .none }

/-- "the events are applied one after the other, each as one atomic step" (rules R10, R289). -/
def execAll : List Instr → State → Result
  | [], s => .next s
  | i :: is, s =>
    match exec i s with
    | .next t => execAll is t
    | .fault r => .fault r
    | .refused r => .refused r

/-- One clock period of a build whose parameters rule R9 admits. -/
def clockPeriod (s : State) : Result :=
  if s.par.valid then
    match decode (fetch s) with
    | .ok is => execAll is (beginClock s)
    | .error why => .refused (.undefinedWord why)
  else .refused .badParameters

/-- A state with one more word before the rest of its trace. -/
def place (w : PortWord) (s : State) : State := { s with input := w :: s.input }

end Sys2Proof.Machine
end

