-- ==== Sys2Proof/Machine/Step.lean ====
section
/-! DEFINITION. The step of the machine, one clock period, and where a word of the opcode table is put so that the next
step runs it. -/

namespace Sys2Proof.Machine

/-- One step: one clock period (rule R10). -/
def step (s : State) : Host.Outcome State Fault Refusal := clockPeriod s

/-- A word of the opcode table at the head of the trace, so that the next step takes it (log entries 4 and 8). A number
that no row of the table has as its word leaves the state as it is. -/
def State.withFetchWord (s : State) (nbits w : Nat) : State :=
  match Sys2Proof.tablePort nbits w with
  | some p => place p s
  | none => s

end Sys2Proof.Machine
end

