-- ==== Sys2Proof/Machine/Trace.lean ====
section
/-! DEFINITION. The trace notation (rules R110, R111): a line as the word of its clock period, and the pseudo-instructions
as the lists of words they expand to. -/

namespace Sys2Proof.Machine

/-- One line of a trace (rule R110). `RESET` stands alone; any other line is the strobes it names, with the two raw
levels of its `TICK` if it has one. A line that names nothing is `NOP`. -/
structure Strobes where
  irqw : Bool
  irql : Bool
  tdone : Bool
  etick : Bool
  /-- the operands `d`, `p` of the line's `TICK` -/
  tick : Option (Bool × Bool)
deriving DecidableEq, Repr

/-- The line `NOP`. -/
def Strobes.none : Strobes := { irqw := false, irql := false, tdone := false, etick := false, tick := Option.none }

/-- The word of a line: "the strobe of each named event set and, for `TICK d p`, `IN[0]` = `d`, `IN[1]` = `p`; without a
`TICK` both are written 0" (rule R110). -/
def lineWord (l : Strobes) : PortWord :=
  .pins false
    ((if l.irqw then 0x40 else 0) ||| (if l.irql then 0x20 else 0) ||| (if l.tdone then 0x10 else 0) |||
      (if l.etick then 0x08 else 0) |||
      (match l.tick with
       | some (d, p) => 0x04 ||| (if d then 0x01 else 0) ||| (if p then 0x02 else 0)
       | Option.none => 0))

/-- The line `RESET` (rule R110). -/
def resetLine : PortWord := .pins true 0

/-- The line `IRQL`. -/
def irqlLine : PortWord := lineWord { Strobes.none with irql := true }

/-- The line `IRQW`. -/
def irqwLine : PortWord := lineWord { Strobes.none with irqw := true }

/-- The line `TDONE`. -/
def tdoneLine : PortWord := lineWord { Strobes.none with tdone := true }

/-- The line `TICK d p`. -/
def tickLine (d p : Bool) : PortWord := lineWord { Strobes.none with tick := some (d, p) }

/-- The line `ETICK+TICK d p`. -/
def etickTickLine (d p : Bool) : PortWord := lineWord { Strobes.none with etick := true, tick := some (d, p) }

/-- `TICKS n d p` (rule R111). -/
def ticks (n : Nat) (d p : Bool) : List PortWord := List.replicate n (tickLine d p)

/-- `MS n d p` (rule R111): one millisecond awake is ten samples and one elapsed-time tick, at `ET_PER_MS` = 1. -/
def msLines : Nat → Bool → Bool → List PortWord
  | 0, _, _ => []
  | n + 1, d, p => etickTickLine d p :: ticks 9 d p ++ msLines n d p

/-- `PRESS` (rule R111); `idle` is the idle level of the pulse line, `1 − PULSE_ASSERT`. -/
def press (idle : Bool) : List PortWord := irqlLine :: ticks debRun false idle

/-- `CONFIRM` (rule R111): `CONFIRM_TICKS` samples. -/
def confirm (idle : Bool) : List PortWord := ticks confirmTicks false idle

/-- `PULSE` (rule R111): 60 ms break and 40 ms make; the widths are general knowledge and no property of the block
(`93_implementation_defined.md` G1). -/
def pulse (idle : Bool) : List PortWord := ticks 600 false (!idle) ++ ticks 400 false idle

/-- `RELEASE` (rule R111). -/
def release (idle : Bool) : List PortWord := ticks debRun true idle

/-- `n * PULSE`. -/
def pulses : Nat → Bool → List PortWord
  | 0, _ => []
  | n + 1, idle => pulse idle ++ pulses n idle

/-- `GESTURE n` (rule R111). -/
def gesture (n : Nat) (idle : Bool) : List PortWord := press idle ++ confirm idle ++ pulses n idle ++ release idle

end Sys2Proof.Machine
end

