-- ==== Sys2Proof/Safety.lean ====
section
/-! DEFINITION. The terms claims are made in: the invariants of rule R45 with what makes them inductive, the phases that
wait for a tone, the phase graph of rule R249, which instructions are the block's own input events, and the codes a
dial-out plays. -/

namespace Sys2Proof.Machine

/-! ### The environment -/

/-- Whether a word is a clock period of the whole block, and not a word at a sub-block's own port. -/
def isPins : PortWord → Bool
  | .pins _ _ => true
  | .dbop _ _ => false
  | .pcop _ => false
  | .fsmev _ => false
  | .act _ => false
  | .cmd _ _ => false

/-- The environment drives the block through its pins alone: "`INVEC`, `RST` and `CMD` are the block's outside" (R90). -/
abbrev pinsOnly (s : State) : Prop := ∀ w ∈ s.input, isPins w = true

/-- Whether an instruction is one of the block's own input events (rule R4 (a)). -/
def isEvent : Instr → Bool
  | .reset => true
  | .nop _ _ => true
  | .irqw => true
  | .irql => true
  | .tdone => true
  | .etick => true
  | .tick _ _ => true
  | _ => false

/-! ### Legal states (rule R45) -/

/-- Rule R45 (a), (h): PendingNumber. -/
abbrev pendLegal (f : DialFsm) : Prop :=
  f.pendLen.toNat ≤ slotCap ∧ ∀ i : Fin slotCap, if i.val < f.pendLen.toNat then f.pend[i] ≤ codeMaxValid else f.pend[i] = codeOff

/-- Rule R45 (h): the redial slot. -/
abbrev redialLegal (f : DialFsm) : Prop := ∀ i : Fin slotCap, f.rd[i] ≤ codeMaxValid ∨ f.rd[i] = codeOff

/-- Rules R25, R30, R45 (g): the DialSession. -/
abbrev counterLegal (x : PulseCounter) : Prop :=
  (if x.digitValid then x.digit ≤ 9 else x.digit = 0) ∧
    (x.escArmed = true → x.pulseSeen = false ∧ x.esc < 3)

/-- The gesture is going on: `PH_GESTURE`, or the tone of an escalation (rule R37). -/
def inGesture (c : Scheduler) : Bool := c.phase == .gesture || (c.phase == .tone && c.retGesture)

/-- The phases in which the dial line's level is idle: asleep, in a dial-out, and in a tone that ends the iteration. -/
def lineIdle (c : Scheduler) : Bool :=
  c.phase == .sleep || c.phase == .playTone || c.phase == .playGap || (c.phase == .tone && !c.retGesture)

/-- The play phases (rule R36). -/
def playing (c : Scheduler) : Bool := c.phase == .playTone || c.phase == .playGap

/-- The cell the play index names is a dialable code. -/
def playCellOk (f : DialFsm) : Bool :=
  if h : f.playIdx.toNat < slotCap then decide (f.pb[f.playIdx.toNat] ≤ codeMaxValid) else false

/-- Rules R28, R37, R45 (e), (f), (g), with what makes them inductive: which flags may be set in which phase. -/
abbrev phaseLegal (s : State) : Prop :=
  (lineIdle s.sch = true → s.dbDial.level = true) ∧
    (s.sch.wdtArmed = true → s.sch.phase = .sleep) ∧
    (s.sch.retGesture = true → s.sch.phase = .tone) ∧
    (s.pc.escArmed = true → inGesture s.sch = true) ∧
    (s.pc.sfRun = true → s.sch.phase = .confirm ∨ inGesture s.sch = true) ∧
    (playing s.sch = true → playCellOk s.fsm = true)

/-- A legal state: the invariants of rule R45 and what they need, the store in canonical form, parameters that rule R9
admits, and an environment that drives the block through its pins. -/
abbrev Legal (s : State) : Prop :=
  pendLegal s.fsm ∧ redialLegal s.fsm ∧ s.fsm.menu ≤ 4 ∧ counterLegal s.pc ∧ phaseLegal s ∧
    s.ps.wf ∧ s.par.valid = true ∧ pinsOnly s

/-- The block's quiescent state (rule R346): asleep with no watchdog armed. -/
abbrev Quiescent (s : State) : Prop := s.sch.phase = .sleep ∧ s.sch.wdtArmed = false

/-! ### Phases, tones, the phase graph -/

/-- The phases that wait for `TDONE` (rules R44 (b), R301). -/
def waitsTone (p : Phase) : Bool := p == .tone || p == .playTone || p == .playGap

/-- Whether a command is a `TONE`. -/
def isTone : Command → Bool
  | .tone _ _ => true
  | _ => false

/-- Whether a command arms or disarms the watchdog. -/
def isWatchdog : Command → Bool
  | .arm _ => true
  | .disarm => true
  | _ => false

/-- The phases an event may lead to from a phase: the rows of rule R249, and "Every other pair of phase and event leaves
the phase as it is." -/
def phaseTargets : Phase → Instr → List Phase
  | _, .reset => [.sleep]
  | .sleep, .irql => [.confirm, .sleep, .tone]
  | .sleep, .irqw => [.sleep, .tone]
  | .confirm, .tick _ _ => [.confirm, .sleep, .gesture]
  | .gesture, .tick _ _ => [.gesture, .tone, .sleep, .playTone]
  | .tone, .tdone => [.gesture, .sleep]
  | .playTone, .tdone => [.playGap]
  | .playGap, .tdone => [.playTone, .sleep]
  | p, _ => [p]

/-! ### Digit-codes -/

/-- The digit-code of a digit event (rule R105: `fsm_ev[3:0]` in 0 to 11); none for every other instruction. -/
def digitCodeOf : Instr → Option Code
  | .digit0to7 d => some (BitVec.ofNat 5 d.toNat)
  | .digit8to9 d0 => some (BitVec.ofNat 5 (8 + d0.toNat))
  | .star => some 10
  | .pound => some 11
  | _ => none

/-- The `DIGIT` event of a resolved digit 0 to 9 (rule R105). -/
def digitInstr (d : BitVec 4) : Instr :=
  if d < 8 then .digit0to7 (d.extractLsb' 0 3) else .digit8to9 (d.getLsbD 0)

/-- The codes a dial-out of a slot plays, in cell order (rule R200). -/
def dialCodes (x : Slot) : List Code := x.toList.filter fun c => decide (c ≤ codeMaxValid)

/-- The commands of `LOOP_TOP` (rule R231). -/
def loopTopCommands (f : DialFsm) : List Command :=
  if f.pendLen = 0 then [.sleep] else [.arm wdtClass, .sleep]

/-! ### Runs of samples -/

/-- The samples of a rectangular wave: runs of the given lengths, the first at level `v` (rule R135 (c)). -/
def wave : Bool → List Nat → List Bool
  | _, [] => []
  | v, n :: ns => List.replicate n v ++ wave (!v) ns

/-- The flags `changed` that the samples of a list give at one line, one after the other. -/
def reports (l : Line) : List Bool → State → List Bool
  | [], _ => []
  | r :: rs, s =>
    match exec (.dbSample l r) s with
    | .next t => (t.db l).changed :: reports l rs t
    | .fault _ => []
    | .refused _ => []

/-- The samples of a list as `DB_SAMPLE` operations at one line. -/
def samples (l : Line) (rs : List Bool) : List Instr := rs.map fun r => .dbSample l r

end Sys2Proof.Machine
end

