-- ==== Sys2Proof/WellFormed.lean ====
section
/-! DEFINITION. Which instructions hold operand values the spec gives a name to: the values it calls reserved are the
ill-formed ones. Every instruction, ill-formed or not, has an encoding and a meaning. -/

namespace Sys2Proof

/-- Tone codes are 0 to 16; 17 to 31 are reserved (rule R98). -/
def Code.isTone (c : Code) : Bool := decide (c ≤ 16)

/-- Duration classes are 0 to 4; 5 to 7 are reserved and never emitted (rule R96). -/
def armClassOk (c : BitVec 3) : Bool := decide (c ≤ 4)

/-- The store's slots are 1 to 7; there is no `PS[0]` (rules R41, R94, R298). -/
def storeSlotOk (s : BitVec 3) : Bool := s != 0

/-- The check of each row with an operand the spec restricts; `ACT` kind 3 is reserved whole (rule R106). -/
def Instr.wellFormed : Instr → Bool
  | .reset => true
  | .nop _ _ => true
  | .irqw => true
  | .irql => true
  | .tdone => true
  | .etick => true
  | .tick _ _ => true
  | .dbHold _ _ => true
  | .dbSample _ _ => true
  | .dbInit _ _ => true
  | .dbReserved _ _ => true
  | .pcHold _ => true
  | .pcAssert _ => true
  | .pcStart _ => true
  | .pcEtick _ => true
  | .pcStep _ => true
  | .pcResolve _ => true
  | .pcStop _ => true
  | .pcReserved _ => true
  | .digit0to7 _ => true
  | .digit8to9 _ => true
  | .star => true
  | .pound => true
  | .fsmevReserved12to15 _ => true
  | .timeout => true
  | .esc1 => true
  | .esc2 => true
  | .esc3 => true
  | .fsmevReserved20to23 _ => true
  | .fsmevReserved24to31 _ => true
  | .actNone => true
  | .actTone code _ => Code.isTone code
  | .actDialout _ => true
  | .actReserved rest => rest == 0
  | .cmdNone => true
  | .tone code _ => Code.isTone code
  | .tsInit => true
  | .arm cls => armClassOk cls
  | .disarm => true
  | .sleep => true
  | .stRead slot => storeSlotOk slot
  | .stWrite slot _ => storeSlotOk slot

end Sys2Proof
end

