-- ==== Sys2Proof/Certificates/Slice0/Obligations.lean ====
section
/-! DEFINITION. The statements about this model, each a `def Obligations.<Name> : Prop`. OBLIGATIONS.json says of each
which rule of spec/ it formalises. A statement that gives `exec i s` as an equation says the whole next state, so it says
where the instruction completes and what it leaves unchanged. -/

open Sys2Proof Sys2Proof.Machine

/-! ### Encodings (30_encoding.md) -/

/-- Decoding the encoding of any instruction, with every operand at every value, gives that instruction alone. -/
def Obligations.DecodeOfEncode : Prop := ∀ i : Instr, decode (encode i) = .ok [i]

/-- Every word of an inner port or of the command port that decodes is the encoding of the instruction it decodes to: a
`CMD` word up to the data bus, which only `ST_WRITE` looks at. -/
def Obligations.EncodeOfDecode : Prop :=
  (∀ (l : Line) (w : BitVec 3), encode (decodeDbop l w) = .dbop l w) ∧
  (∀ w : BitVec 4, encode (decodePcop w) = .pcop w) ∧
  (∀ w : BitVec 5, encode (decodeFsmev w) = .fsmev w) ∧
  (∀ (w : BitVec 26) (i : Instr), decodeAct w = .ok i → encode i = .act w) ∧
  (∀ (w : BitVec 24) (wd : BitVec 150) (i : Instr), decodeCmd w wd = .ok i →
    ∃ wd', encode i = .cmd w wd' ∧ ∀ slot data, i = .stWrite slot data → wd' = wd)

/-- Rule R92: which vector selects which event, and the order of the selected events. -/
def Obligations.VectorSelectsEvents : Prop :=
  ∀ v : BitVec 7, ∃ ev, decode (.pins false v) = .ok ev ∧
    (.irqw ∈ ev ↔ v &&& 0x40 = 0x40) ∧
    (.irql ∈ ev ↔ v &&& 0x60 = 0x20) ∧
    (.tdone ∈ ev ↔ v &&& 0x10 = 0x10) ∧
    (.etick ∈ ev ↔ v &&& 0x08 = 0x08) ∧
    (∀ d p, .tick d p ∈ ev ↔ v &&& 0x04 = 0x04 ∧ d = v.getLsbD 0 ∧ p = v.getLsbD 1) ∧
    (∀ d p, .nop d p ∈ ev ↔ v &&& 0x7C = 0x00 ∧ d = v.getLsbD 0 ∧ p = v.getLsbD 1) ∧
    ev.Sublist [.irqw, .irql, .tdone, .etick, .tick (v.getLsbD 0) (v.getLsbD 1), .nop (v.getLsbD 0) (v.getLsbD 1)]

/-- Rules R92, R110: a trace line decodes to the events it names, in the fixed order, an `IRQL` beside an `IRQW` dropped;
the line that names nothing is `NOP`. -/
def Obligations.TraceLineDecodes : Prop :=
  ∀ l : Strobes, decode (lineWord l) = .ok (if l = Strobes.none then [.nop false false] else
    (if l.irqw then [.irqw] else []) ++ (if l.irql && !l.irqw then [.irql] else []) ++
    (if l.tdone then [.tdone] else []) ++ (if l.etick then [.etick] else []) ++
    (match l.tick with
     | some (d, p) => [.tick d p]
     | none => []))

/-- Words written out from the spec's encodings (rules R92, R94, R103 to R106 and the tables of 95_test_vectors.md 2.1). -/
def Obligations.SpecWordsDecode : Prop :=
  decode (.pins false 0x7F) = .ok [.irqw, .tdone, .etick, .tick true true] ∧
  decode (.pins false 0x1C) = .ok [.tdone, .etick, .tick false false] ∧
  decode (.dbop .dial 0b011) = .ok [.dbSample .dial true] ∧
  decode (.pcop 0b0101) = .ok [.pcStart true] ∧
  decode (.fsmev 0b01001) = .ok [.digit8to9 true] ∧
  decode (.fsmev 0b10010) = .ok [.esc2] ∧
  decode (.act (0b10#2 ++ 0#5 ++ 0#16 ++ 0b111#3)) = .ok [.actDialout 7] ∧
  decode (.cmd 0x3000C8 0) = .ok [.tone 16 200] ∧
  decode (.cmd 0x600003 0) = .ok [.arm 3] ∧
  decode (.cmd 0xC00001 0) = .ok [.stRead 1]

/-! ### The clock period (rules R9, R10, R93) -/

/-- A step takes the next word of the trace, starts the period with an idle command port and idle wires, and runs what the
word decodes to: one instruction, or the events of a vector one after the other. -/
def Obligations.StepRunsDecoded : Prop :=
  ∀ (s : State) (w : PortWord) (rest : List PortWord), s.par.valid = true → s.input = w :: rest →
    (∀ i, decode w = .ok [i] →
      step s = exec i { s with input := rest, clock := s.clock + 1, out := [], pcOut := .outNone, act := .none }) ∧
    (∀ ev, decode w = .ok ev →
      step s = execAll ev { s with input := rest, clock := s.clock + 1, out := [], pcOut := .outNone, act := .none })

/-- Rule R93: with `RST` = 1 the period is the single event `RESET` and the vector is ignored. -/
def Obligations.ResetPinIgnoresVector : Prop :=
  ∀ (s : State) (v : BitVec 7), s.par.valid = true →
    step { s with input := .pins true v :: s.input } =
      exec .reset { s with clock := s.clock + 1, out := [], pcOut := .outNone, act := .none }

/-- Rule R9: the derived constants, and the parameters a model must refuse. That `ET_PER_MS` = 0 is among them is rule R8
("positive integer") with `93_implementation_defined.md` U4; that the refusal is the step's is the model's reading
(DEDUCED, log entry 13). -/
def Obligations.BadParametersRefused : Prop :=
  ∀ s : State, s.par.holdTicks = 2000 * s.par.etPerMs ∧ confirmTicks = 5000 ∧
    (s.par.etPerMs = 0 ∨ 65534 < 2000 * s.par.etPerMs → step s = .refused .badParameters) ∧
    (1 ≤ s.par.etPerMs ∧ 2000 * s.par.etPerMs ≤ 65534 → step s ≠ .refused .badParameters)

/-! ### Reset and holds (rules R105, R133, R161, R246, R320) -/

/-- Rule R320: every register after `RESET`, and its two commands; the store keeps its content. -/
def Obligations.ResetSetsEveryRegister : Prop :=
  ∀ s : State, exec .reset s = .next { s with
    dbDial := { hist := 0xFF, level := true, changed := false }
    dbPulse := { hist := if s.par.pulseAssert then 0x00 else 0xFF, level := !s.par.pulseAssert, changed := false }
    pc := { tally := 0, digit := 0, digitValid := false, pulseSeen := false,
            sfCnt := 0, sfRun := false, esc := 0, escArmed := false }
    fsm := { menu := 0, pend := Vector.replicate 30 16, pendLen := 0, target := 0,
             rd := Vector.replicate 30 16, pb := Vector.replicate 30 16, playIdx := 0 }
    sch := { phase := .sleep, retGesture := false, cfCnt := 0, wakeTimeout := false, wdtArmed := false }
    out := s.out ++ [.tsInit, .sleep] }

/-- The machine's reset state is what `RESET` leaves of a block of the default build with an unset store (the build and
the idle trace are the model's: log entries 2, 3, 4). -/
def Obligations.MachineResetIsReset : Prop :=
  ∀ s : State, s.par = Config.build → s.ps = [] → s.out = [] → s.pcOut = .outNone → s.act = .none → s.input = [] →
    s.clock = 0 → exec .reset s = .next State.reset

/-- The operations that hold: `NOP`, `DB_HOLD`, the reserved `db_op`, `PC_HOLD`, the reserved `pc_op` (with `OUT_NONE`),
the reserved events of `dial_command_fsm` (with `ACT_NONE`), the idle command port. -/
def Obligations.HoldsChangeNothing : Prop :=
  ∀ s : State,
    (∀ d p, exec (.nop d p) s = .next s) ∧
    (∀ l b, exec (.dbHold l b) s = .next s ∧ exec (.dbReserved l b) s = .next s) ∧
    (∀ b, exec (.pcHold b) s = .next { s with pcOut := .outNone } ∧
      exec (.pcReserved b) s = .next { s with pcOut := .outNone }) ∧
    (∀ low, exec (.fsmevReserved12to15 low) s = .next { s with act := .none }) ∧
    (∀ low, exec (.fsmevReserved20to23 low) s = .next { s with act := .none }) ∧
    (∀ low, exec (.fsmevReserved24to31 low) s = .next { s with act := .none }) ∧
    exec .cmdNone s = .next s

/-! ### debounce_filter (40_debounce_filter.md) -/

/-- Rule R132: `DB_SAMPLE r` at either instance. -/
def Obligations.SampleShiftsAndFlips : Prop :=
  ∀ (l : Line) (r : Bool) (s : State),
    exec (.dbSample l r) s = .next (s.setDb l
      (let h := (((s.db l).hist <<< 1) ||| (if r then 1 else 0)) &&& 0xFF
       if h &&& 0xC7 = 0x07 ∧ (s.db l).level = false then { hist := h, level := true, changed := true }
       else if h &&& 0xC7 = 0xC0 ∧ (s.db l).level = true then { hist := h, level := false, changed := true }
       else { hist := h, level := (s.db l).level, changed := false }))

/-- Rule R131: `DB_INIT` at either instance. -/
def Obligations.InitFillsHistory : Prop :=
  ∀ (l : Line) (b : Bool) (s : State),
    exec (.dbInit l b) s = .next (s.setDb l
      { hist := if (s.db l).level then 0xFF else 0x00, level := (s.db l).level, changed := false })

/-- Rule R134: if a sample flips the level to `v`, that sample and the two before it (the two newest bits of the history,
rule R21) all equal `v`. -/
def Obligations.FlipNeedsThreeSamples : Prop :=
  ∀ (l : Line) (r : Bool) (s t : State), exec (.dbSample l r) s = .next t → (t.db l).level ≠ (s.db l).level →
    r = (t.db l).level ∧ (s.db l).hist.getLsbD 0 = (t.db l).level ∧ (s.db l).hist.getLsbD 1 = (t.db l).level

/-- Rule R135 (a): a clean step after eight steady samples is reported by the third sample and by no earlier one. -/
def Obligations.CleanStepAtThirdSample : Prop :=
  ∀ (l : Line) (s : State), (s.db l).hist = (if (s.db l).level then 0xFF else 0x00) →
    reports l (List.replicate 3 (!(s.db l).level)) s = [false, false, true] ∧
    ∃ t, execAll (samples l (List.replicate 3 (!(s.db l).level))) s = .next t ∧ (t.db l).level = !(s.db l).level

/-- Rule R136: while the raw line stays at the level `v`, every later sample reports no change, and the level stays. -/
def Obligations.SteadyLineReportsNothing : Prop :=
  ∀ (n : Nat) (l : Line) (s : State),
    reports l (List.replicate n (s.db l).level) s = List.replicate n false ∧
    ∃ t, execAll (samples l (List.replicate n (s.db l).level)) s = .next t ∧ (t.db l).level = (s.db l).level

/-- Rule R137: from eight high samples, the samples 0, 1, 0, 1 and then 0 for ever never report a fall. -/
def Obligations.LockedOutLineNeverFalls : Prop :=
  ∀ (n : Nat) (l : Line) (s : State), (s.db l).hist = 0xFF → (s.db l).level = true →
    reports l ([false, true, false, true] ++ List.replicate n false) s = List.replicate (4 + n) false ∧
    ∃ t, execAll (samples l ([false, true, false, true] ++ List.replicate n false)) s = .next t ∧
      (t.db l).level = true

/-- Rule R135 (c): every edge of a clean rectangular wave with runs of at least five samples is reported at the third
sample after it, and nothing else is. -/
def Obligations.WaveEdgesAtThirdSample : Prop :=
  ∀ (ns : List Nat) (l : Line) (s : State), (∀ n ∈ ns, 5 ≤ n) →
    (s.db l).hist = (if (s.db l).level then 0xFF else 0x00) →
    reports l (wave (!(s.db l).level) ns) s =
      ns.flatMap fun n => [false, false, true] ++ List.replicate (n - 3) false

/-! ### pulse_counter (41_pulse_counter.md) -/

/-- Rules R151, R152, R160: `PC_ASSERT`, `PC_START m`, `PC_STOP` at the port. -/
def Obligations.CounterPortRules : Prop :=
  ∀ (s : State) (b m : Bool),
    exec (.pcAssert b) s = .next { s with pc := { s.pc with sfCnt := 0, sfRun := true }, pcOut := .outNone } ∧
    exec (.pcStart m) s = .next { s with
      pc := { s.pc with tally := 0, digit := 0, digitValid := false, pulseSeen := false, esc := 0, escArmed := m }
      pcOut := .outNone } ∧
    exec (.pcStop b) s = .next { s with pc := { s.pc with sfRun := false, escArmed := false }, pcOut := .outNone }

/-- Rules R153, R245: an elapsed-time tick, at the port and as the block's event in every phase. -/
def Obligations.ElapsedTickCounts : Prop :=
  ∀ (s : State) (b : Bool),
    exec .etick s = .next { s with pc := { s.pc with
      sfCnt := if s.pc.sfRun then BitVec.ofNat 16 (min (s.pc.sfCnt.toNat + 1) 65535) else s.pc.sfCnt } } ∧
    exec (.pcEtick b) s = .next { s with
      pc := { s.pc with sfCnt := if s.pc.sfRun then BitVec.ofNat 16 (min (s.pc.sfCnt.toNat + 1) 65535) else s.pc.sfCnt }
      pcOut := .outNone }

/-- Rules R157 to R159: `PC_RESOLVE`, standard and reversed. -/
def Obligations.ResolveMapsTally : Prop :=
  ∀ (s : State) (b : Bool),
    exec (.pcResolve b) s = .next { s with
      pc := { s.pc with
        digitValid := decide (1 ≤ s.pc.tally.toNat ∧ s.pc.tally.toNat ≤ 10)
        digit :=
          if 1 ≤ s.pc.tally.toNat ∧ s.pc.tally.toNat ≤ 9 then
            if s.par.reversed then BitVec.ofNat 4 (10 - s.pc.tally.toNat) else s.pc.tally
          else 0 }
      pcOut := .outNone }

/-- Rule R154: the four branches of `PC_STEP`, on the wires of the two instances. -/
def Obligations.StepTakesFirstBranch : Prop :=
  ∀ (s : State) (b : Bool),
    (s.dbDial.level = true →
      ∃ u, exec (.pcResolve b) { s with pc := { s.pc with sfRun := false, escArmed := false } } = .next u ∧
        exec (.pcStep b) s = .next { u with pcOut := .outEnd }) ∧
    (s.dbDial.level = false → s.dbPulse.changed = true → s.dbPulse.level = s.par.pulseAssert →
      exec (.pcStep b) s = .next { s with
        pc := { s.pc with
          tally := BitVec.ofNat 4 (min (s.pc.tally.toNat + 1) 15), pulseSeen := true, escArmed := false }
        pcOut := .outPulse }) ∧
    (s.dbDial.level = false → ¬(s.dbPulse.changed = true ∧ s.dbPulse.level = s.par.pulseAssert) →
      s.pc.escArmed = true → 2000 * s.par.etPerMs ≤ s.pc.sfCnt.toNat →
      exec (.pcStep b) s = .next { s with
        pc := { s.pc with esc := s.pc.esc + 1, sfCnt := 0, escArmed := decide (s.pc.esc + 1 ≠ 3) }
        pcOut := .outEsc }) ∧
    (s.dbDial.level = false → ¬(s.dbPulse.changed = true ∧ s.dbPulse.level = s.par.pulseAssert) →
      ¬(s.pc.escArmed = true ∧ 2000 * s.par.etPerMs ≤ s.pc.sfCnt.toNat) →
      exec (.pcStep b) s = .next { s with pcOut := .outNone })

/-- Rule R163, as a step. In the gesture, its tones among it, with escalation disarmed, no event but `RESET` arms it again,
changes the escalation level, or escalates (rule R243: enters the tone phase to return to the gesture). And a counted
pulse leaves it disarmed: at the port, and in the sample tick of a gesture. -/
def Obligations.NoEscalationAfterPulse : Prop :=
  (∀ (i : Instr) (s t : State), isEvent i = true → i ≠ .reset → inGesture s.sch = true → s.pc.escArmed = false →
    exec i s = .next t →
    t.pc.escArmed = false ∧ t.pc.esc = s.pc.esc ∧
    (s.sch.phase = .gesture → ¬(t.sch.phase = .tone ∧ t.sch.retGesture = true))) ∧
  (∀ (s t : State) (b : Bool), exec (.pcStep b) s = .next t → t.pcOut = .outPulse →
    t.pc.escArmed = false ∧ t.pc.esc = s.pc.esc ∧ t.pc.pulseSeen = true) ∧
  (∀ (s t : State) (d p : Bool), s.sch.phase = .gesture → exec (.tick d p) s = .next t → t.pcOut = .outPulse →
    t.pc.escArmed = false ∧ t.pc.esc = s.pc.esc ∧ t.pc.pulseSeen = true ∧ t.sch = s.sch)

/-! ### dial_command_fsm (42_dial_command_fsm.md) -/

/-- Rules R181, R186: a digit, ★ or # in the Dial state, or in a menu state that is none of the five. -/
def Obligations.DigitInDial : Prop :=
  ∀ (i : Instr) (d : Code) (s : State), digitCodeOf i = some d → s.fsm.menu = 0 ∨ 5 ≤ s.fsm.menu →
    exec i s = .next { s with
      fsm := { s.fsm with
        pend := if s.fsm.pendLen < 30 then s.fsm.pend.setIfInBounds s.fsm.pendLen.toNat d else Vector.replicate 30 16
        pendLen := if s.fsm.pendLen < 30 then s.fsm.pendLen + 1 else 0
        target := 0
        menu := 0 }
      act := .tone d s.par.dtmfMs }

/-- Rules R187 to R190: a digit, ★ or # in SpecialL1. -/
def Obligations.DigitInSpecialOne : Prop :=
  ∀ (i : Instr) (d : Code) (s : State), digitCodeOf i = some d → s.fsm.menu = 1 →
    (d = 1 → exec i s = exec .star { s with fsm := { s.fsm with menu := 0 } }) ∧
    (d = 2 → exec i s = exec .pound { s with fsm := { s.fsm with menu := 0 } }) ∧
    (d = 3 → exec i s = .next { s with fsm := { s.fsm with menu := 0 }, act := .dialout 0 }) ∧
    (4 ≤ d.toNat ∧ d.toNat ≤ 9 → exec i s = .next { s with
      fsm := { s.fsm with menu := 0 }, act := .dialout (BitVec.ofNat 3 (d.toNat - 3)) }) ∧
    (d = 0 → exec i s = .next { s with fsm := { s.fsm with menu := 0 }, act := .dialout 7 }) ∧
    (d = 10 ∨ d = 11 → exec i s = .next { s with fsm := { s.fsm with menu := 0 }, act := .none })

/-- Rules R191, R192: a digit, ★ or # in SpecialL2. -/
def Obligations.DigitInSpecialTwo : Prop :=
  ∀ (i : Instr) (d : Code) (s : State), digitCodeOf i = some d → s.fsm.menu = 2 →
    (∀ slot : BitVec 3,
      (d = 3 ∧ slot = 0) ∨ (4 ≤ d.toNat ∧ d.toNat ≤ 9 ∧ slot.toNat = d.toNat - 3) ∨ (d = 0 ∧ slot = 7) →
      exec i s = .next { s with
        fsm := { s.fsm with pend := Vector.replicate 30 16, pendLen := 0, target := slot, menu := 4 }
        act := .none }) ∧
    (d = 1 ∨ d = 2 ∨ d = 10 ∨ d = 11 →
      exec i s = .next { s with fsm := { s.fsm with menu := 0 }, act := .tone 15 s.par.tuneMs })

/-- Rule R193: a digit, ★ or # in SpecialL3. -/
def Obligations.DigitInSpecialThree : Prop :=
  ∀ (i : Instr) (d : Code) (s : State), digitCodeOf i = some d → s.fsm.menu = 3 →
    exec i s = .next { s with fsm := { s.fsm with menu := 0 }, act := .none }

/-- Rules R194, R195: a digit, ★ or # in ProgramSpeedDial; nothing starts a dial-out there (rule R203). -/
def Obligations.DigitInProgram : Prop :=
  ∀ (i : Instr) (d : Code) (s : State), digitCodeOf i = some d → s.fsm.menu = 4 →
    exec i s = .next (if s.fsm.pendLen < 30 then
      { s with
        fsm := { s.fsm with
          pend := s.fsm.pend.setIfInBounds s.fsm.pendLen.toNat d, pendLen := s.fsm.pendLen + 1 }
        act := .tone 13 s.par.beepLowMs }
    else
      { s with
        fsm := { s.fsm with pend := Vector.replicate 30 16, pendLen := 0, menu := 0 }
        act := .tone 15 s.par.tuneMs })

/-- Rule R196: `ESC 1`, `ESC 2`, `ESC 3`. -/
def Obligations.EscalationSetsMenu : Prop :=
  ∀ s : State,
    exec .esc1 s = .next { s with fsm := { s.fsm with menu := 1 }, act := .tone 13 s.par.beepLowMs } ∧
    exec .esc2 s = .next { s with fsm := { s.fsm with menu := 2 }, act := .tone 14 s.par.tuneMs } ∧
    exec .esc3 s = .next { s with fsm := { s.fsm with menu := 3 }, act := .tone 15 s.par.tuneMs }

/-- Rules R197, R198: `TIMEOUT` commits PendingNumber to the target slot, which for a persisted slot is read and written
only on a difference; every other byte of the store is left alone. -/
def Obligations.TimeoutCommitsPendingNumber : Prop :=
  ∀ s : State, s.ps.wf → ∃ t, exec .timeout s = .next t ∧
    t.fsm = { s.fsm with
      menu := 0, pend := Vector.replicate 30 16, pendLen := 0
      rd := if s.fsm.target = 0 then s.fsm.pend else s.fsm.rd } ∧
    t.act = (if s.fsm.menu = 4 then .tone 12 s.par.beepMs else .none) ∧
    (s.fsm.target = 0 → t.out = s.out) ∧
    (s.fsm.target ≠ 0 → (∀ i : Fin 30, (s.ps.read (cellAddr s.fsm.target i)).setWidth 5 = s.fsm.pend[i]) →
      t.out = s.out ++ [.stRead s.fsm.target]) ∧
    (s.fsm.target ≠ 0 → ¬(∀ i : Fin 30, (s.ps.read (cellAddr s.fsm.target i)).setWidth 5 = s.fsm.pend[i]) →
      t.out = s.out ++ [.stRead s.fsm.target, .stWrite s.fsm.target s.fsm.pend]) ∧
    (s.fsm.target ≠ 0 → ∀ i : Fin 30, t.ps.read (cellAddr s.fsm.target i) = s.fsm.pend[i].setWidth 8) ∧
    (∀ a, s.fsm.target = 0 ∨ (∀ i : Fin 30, a ≠ cellAddr s.fsm.target i) → t.ps.read a = s.ps.read a) ∧
    t.dbDial = s.dbDial ∧ t.dbPulse = s.dbPulse ∧ t.pc = s.pc ∧ t.sch = s.sch ∧ t.par = s.par ∧ t.pcOut = s.pcOut ∧
    t.input = s.input ∧ t.clock = s.clock

/-- "writing identical content twice results in exactly one underlying store mutation" (rules R67, R198): a second commit
of the same PendingNumber to the same persisted slot reads the slot and writes nothing. -/
def Obligations.SecondCommitWritesNothing : Prop :=
  ∀ s t : State, s.ps.wf → s.fsm.target ≠ 0 → exec .timeout s = .next t →
    ∃ u, exec .timeout { t with fsm := { t.fsm with pend := s.fsm.pend, pendLen := s.fsm.pendLen } } = .next u ∧
      u.out = t.out ++ [.stRead s.fsm.target] ∧ u.ps = t.ps

/-! ### The command port (rules R40, R94 to R98, R296 to R298) -/

/-- The commands that only leave the block, and `ARM` and `DISARM` with the block's record of them (rule R40). That a
command word run as an instruction is that command issued, appended to the list (rule R13), and for `SLEEP` and `TONE`
leaves the phase alone, is the model's choice (log entry 15), and so is that a `TONE` of a reserved code is issued like any
other (log entry 22). -/
def Obligations.CommandsReachThePort : Prop :=
  ∀ s : State,
    (∀ code ms, exec (.tone code ms) s = .next { s with out := s.out ++ [.tone code ms] }) ∧
    exec .tsInit s = .next { s with out := s.out ++ [.tsInit] } ∧
    exec .sleep s = .next { s with out := s.out ++ [.sleep] } ∧
    (∀ slot, slot ≠ 0 → exec (.stRead slot) s = .next { s with out := s.out ++ [.stRead slot] }) ∧
    (∀ cls : BitVec 3, cls.toNat ≤ 4 → exec (.arm cls) s = .next { s with
      out := s.out ++ [.arm cls], sch := { s.sch with wdtArmed := true } }) ∧
    exec .disarm s = .next { s with out := s.out ++ [.disarm], sch := { s.sch with wdtArmed := false } }

/-- Rule R63: `ST_WRITE` replaces all 30 cells of its slot and no other byte of the store. That a command word is run as an
instruction (log entry 15), and the layout and canonical form of the store, which is kept (log entry 14), are the model's
choice. -/
def Obligations.StoreWriteReplacesSlot : Prop :=
  ∀ (slot : BitVec 3) (data : Slot) (s : State), slot ≠ 0 → s.ps.wf →
    ∃ t, exec (.stWrite slot data) s = .next t ∧
      t.out = s.out ++ [.stWrite slot data] ∧
      (∀ i : Fin 30, t.ps.read (cellAddr slot i) = data[i].setWidth 8) ∧
      (∀ a, (∀ i : Fin 30, a ≠ cellAddr slot i) → t.ps.read a = s.ps.read a) ∧
      t.ps.wf ∧
      t.dbDial = s.dbDial ∧ t.dbPulse = s.dbPulse ∧ t.pc = s.pc ∧ t.fsm = s.fsm ∧ t.sch = s.sch ∧ t.par = s.par ∧
      t.pcOut = s.pcOut ∧ t.act = s.act ∧ t.input = s.input ∧ t.clock = s.clock

/-- "There is no `PS[0]`" (rule R41), and no such command is emitted (rule R108): a store command given slot 0 is absorbed
by ignoring it, the model's reading (log entry 11). -/
def Obligations.StoreSlotZeroIgnored : Prop :=
  ∀ (s : State) (data : Slot), exec (.stRead 0) s = .next s ∧ exec (.stWrite 0 data) s = .next s

/-- Reserved words the rules give no effect are absorbed by ignoring them, the model's reading (log entry 10): an `ACT`
word of kind 3, and an `ARM` of class 5 to 7, which is "never emitted" (rule R96). -/
def Obligations.ReservedWordsIgnored : Prop :=
  ∀ s : State, (∀ rest, exec (.actReserved rest) s = .next s) ∧
    (∀ cls : BitVec 3, 5 ≤ cls.toNat → exec (.arm cls) s = .next s)

/-! ### Actions and tones (rules R231, R242, R244, R199 to R201) -/

/-- Rule R231, and rule R242 for `ACT_NONE`: the top of the loop arms the watchdog exactly if PendingNumber is non-empty,
and sleeps. -/
def Obligations.NoActionSleeps : Prop :=
  ∀ s : State,
    (s.fsm.pendLen ≠ 0 → exec .actNone s = .next { s with
      out := s.out ++ [.arm 3, .sleep], sch := { s.sch with wdtArmed := true, phase := .sleep } }) ∧
    (s.fsm.pendLen = 0 → exec .actNone s = .next { s with
      out := s.out ++ [.sleep], sch := { s.sch with phase := .sleep } })

/-- Rule R242 for `ACT_TONE`. That a reserved code is played like any other is the model's choice (log entry 22). -/
def Obligations.ToneActionWaits : Prop :=
  ∀ (s : State) (code : Code) (ms : BitVec 16),
    exec (.actTone code ms) s = .next { s with
      out := s.out ++ [.tone code ms], sch := { s.sch with retGesture := false, phase := .tone } }

/-- Rules R199, R200, R242 for `ACT_DIALOUT`: the slot is loaded whole, by one read if it is persisted, and its first
dialable code is played; a slot without one goes to the top of the loop. -/
def Obligations.DialoutPlaysFirstCode : Prop :=
  ∀ (s : State) (slot : BitVec 3),
    let x := if slot = 0 then s.fsm.rd else s.ps.readSlot slot
    let reads := if slot = 0 then [] else [Command.stRead slot]
    (∀ j : Fin 30, x[j] ≤ 11 → (∀ k : Fin 30, k < j → ¬ x[k] ≤ 11) →
      exec (.actDialout slot) s = .next { s with
        fsm := { s.fsm with pb := x, playIdx := BitVec.ofNat 5 j }
        out := s.out ++ reads ++ [.tone x[j] 200]
        sch := { s.sch with phase := .playTone } }) ∧
    ((∀ j : Fin 30, ¬ x[j] ≤ 11) →
      exec (.actDialout slot) s = .next { s with
        fsm := { s.fsm with pb := x, playIdx := 30 }
        out := s.out ++ reads ++ loopTopCommands s.fsm
        sch := { s.sch with phase := .sleep, wdtArmed := if s.fsm.pendLen = 0 then s.sch.wdtArmed else true } })

/-- Rule R201: a dial-out of a slot with `k` dialable codes, each of its `2k` tones answered by one `TDONE`, emits in cell
order `k` pairs of a tone and a silence, and then goes to the top of the loop; it changes the play buffer and its index
and nothing else of the menu. -/
def Obligations.DialoutPlaysEveryCode : Prop :=
  ∀ (s : State) (slot : BitVec 3),
    let x := if slot = 0 then s.fsm.rd else s.ps.readSlot slot
    ∃ t, execAll (.actDialout slot :: List.replicate (2 * (dialCodes x).length) .tdone) s = .next t ∧
      t.out = s.out ++ (if slot = 0 then [] else [.stRead slot]) ++
        ((dialCodes x).flatMap fun c => [.tone c 200, .tone 16 200]) ++ loopTopCommands s.fsm ∧
      t.sch.phase = .sleep ∧ t.fsm = { s.fsm with pb := x, playIdx := 30 } ∧ t.ps = s.ps ∧ t.pc = s.pc ∧
      t.dbDial = s.dbDial ∧ t.dbPulse = s.dbPulse

/-- Rule R244 but for the end of a silence. -/
def Obligations.ToneDoneByPhase : Prop :=
  ∀ s : State,
    (s.sch.phase = .tone → s.sch.retGesture = true →
      exec .tdone s = .next { s with sch := { s.sch with retGesture := false, phase := .gesture } }) ∧
    (s.sch.phase = .tone → s.sch.retGesture = false → exec .tdone s = exec .actNone s) ∧
    (s.sch.phase = .playTone →
      exec .tdone s = .next { s with out := s.out ++ [.tone 16 200], sch := { s.sch with phase := .playGap } }) ∧
    (s.sch.phase = .sleep ∨ s.sch.phase = .confirm ∨ s.sch.phase = .gesture → exec .tdone s = .next s)

/-- Rules R200, R244: at the end of a silence the next dialable code after the one played is looked for and played; with
none left the loop starts again. -/
def Obligations.GapDonePlaysNextCode : Prop :=
  ∀ s : State, s.sch.phase = .playGap → s.fsm.playIdx.toNat < 30 →
    (∀ j : Fin 30, s.fsm.playIdx.toNat < j.val → s.fsm.pb[j] ≤ 11 →
      (∀ k : Fin 30, s.fsm.playIdx.toNat < k.val → k < j → ¬ s.fsm.pb[k] ≤ 11) →
      exec .tdone s = .next { s with
        fsm := { s.fsm with playIdx := BitVec.ofNat 5 j }
        out := s.out ++ [.tone s.fsm.pb[j] 200]
        sch := { s.sch with phase := .playTone } }) ∧
    ((∀ j : Fin 30, s.fsm.playIdx.toNat < j.val → ¬ s.fsm.pb[j] ≤ 11) →
      exec .tdone s = exec .actNone { s with fsm := { s.fsm with playIdx := 30 } })

/-- A play index that names no cell, which no state reachable through the pins holds (rules R61, R164 (d)). From 30 the next
index is 31, and the code played is the one rule R200 returns from a cell that does not exist: a free value, and this holds
for every value of it. From 31 the five bits wrap and the play-out starts over at cell 0. Both are the model's choice (log
entry 12). -/
def Obligations.PlayIndexNamesNoCell : Prop :=
  ∀ s : State, s.sch.phase = .playGap →
    (s.fsm.playIdx = 30 → exec .tdone s = .next { s with
      fsm := { s.fsm with playIdx := 31 }
      out := s.out ++ [.tone (Config.absentCell s.clock) 200]
      sch := { s.sch with phase := .playTone } }) ∧
    (s.fsm.playIdx = 31 → (∀ j : Fin 30, s.fsm.pb[j] ≤ 11 → (∀ k : Fin 30, k < j → ¬ s.fsm.pb[k] ≤ 11) →
      exec .tdone s = .next { s with
        fsm := { s.fsm with playIdx := BitVec.ofNat 5 j }
        out := s.out ++ [.tone s.fsm.pb[j] 200]
        sch := { s.sch with phase := .playTone } }) ∧
      ((∀ j : Fin 30, ¬ s.fsm.pb[j] ≤ 11) → exec .tdone s = exec .actNone { s with fsm := { s.fsm with playIdx := 30 } }))

/-! ### Interrupts and the wake (rules R232 to R236, R291, R336) -/

/-- Rules R233, R234, R236: a line wake, the watchdog disarmed if it is armed. -/
def Obligations.LineWakeStartsConfirm : Prop :=
  ∀ s : State, s.sch.phase = .sleep → s.sch.wakeTimeout = false →
    exec .irql s = .next { s with
      dbDial := { hist := if s.dbDial.level then 0xFF else 0x00, level := s.dbDial.level, changed := false }
      dbPulse := { hist := if s.dbPulse.level then 0xFF else 0x00, level := s.dbPulse.level, changed := false }
      pc := { s.pc with sfRun := false, sfCnt := 0 }
      sch := { s.sch with wdtArmed := false, cfCnt := 0, phase := .confirm }
      out := s.out ++ (if s.sch.wdtArmed then [.disarm] else []) }

/-- Rules R232, R234, R235: a watchdog wake disarms, consumes the reason, gives `dial_command_fsm` the `TIMEOUT` event
and plays what comes back; it always completes. -/
def Obligations.WatchdogWakeCommits : Prop :=
  ∀ s : State, s.sch.phase = .sleep →
    ∃ u, exec .timeout { s with
        sch := { s.sch with wdtArmed := false, wakeTimeout := false }
        out := s.out ++ (if s.sch.wdtArmed then [.disarm] else []) } = .next u ∧
      exec .irqw s = exec u.act.toInstr u ∧ ∃ t, exec .irqw s = .next t

/-- Rules R232, R233: outside the sleep phase `IRQW` is only latched and `IRQL` is ignored. -/
def Obligations.InterruptsWhileAwake : Prop :=
  ∀ s : State, s.sch.phase ≠ .sleep →
    exec .irqw s = .next { s with sch := { s.sch with wakeTimeout := true } } ∧ exec .irql s = .next s

/-- Rule R336: with the reason latched, a line wake takes the timeout path, as a watchdog wake does. -/
def Obligations.LatchedReasonMisroutes : Prop :=
  ∀ s : State, s.sch.phase = .sleep → s.sch.wakeTimeout = true → exec .irql s = exec .irqw s

/-! ### The sample tick (rules R237 to R243, R247) -/

/-- Rule R247: the phases in which a sample tick is ignored. -/
def Obligations.TickIgnored : Prop :=
  ∀ (s : State) (d p : Bool), s.sch.phase ≠ .confirm → s.sch.phase ≠ .gesture → exec (.tick d p) s = .next s

/-- Rules R237 to R239: a sample tick in the confirm phase, `u` being the state after the dial line's sample and `n` the
confirm counter one further. An abandon is `PC_STOP` and the top of the loop. -/
def Obligations.TickInConfirm : Prop :=
  ∀ (s : State) (d p : Bool), s.sch.phase = .confirm →
    let n := min (s.sch.cfCnt.toNat + 1) 65535
    ∃ u, exec (.dbSample .dial d) s = .next u ∧
      (u.dbDial.changed = true → u.dbDial.level = false →
        exec (.tick d p) s = .next { u with
          sch := { u.sch with cfCnt := 0 }, pc := { u.pc with sfCnt := 0, sfRun := true } }) ∧
      (u.dbDial.changed = true → u.dbDial.level = true →
        exec (.tick d p) s = exec .actNone { u with
          sch := { u.sch with cfCnt := BitVec.ofNat 16 n }
          pc := { u.pc with sfRun := false, escArmed := false } }) ∧
      (u.dbDial.changed = false → n = 5000 → u.dbDial.level = false →
        exec (.tick d p) s = .next { u with
          sch := { u.sch with cfCnt := 5000, phase := .gesture }
          pc := { u.pc with tally := 0, digit := 0, digitValid := false, pulseSeen := false, esc := 0,
                            escArmed := decide (s.fsm.menu = 0 ∨ 5 ≤ s.fsm.menu) } }) ∧
      (u.dbDial.changed = false → n = 5000 → u.dbDial.level = true →
        exec (.tick d p) s = exec .actNone { u with
          sch := { u.sch with cfCnt := 5000 }, pc := { u.pc with sfRun := false, escArmed := false } }) ∧
      (u.dbDial.changed = false → n ≠ 5000 →
        exec (.tick d p) s = .next { u with sch := { u.sch with cfCnt := BitVec.ofNat 16 n } })

/-- Rules R240, R241, R243: a sample tick in the gesture phase samples the dial line, then the pulse line, then steps the
counter, and acts on its outcome: a valid digit is dispatched and its action done, an invalid gesture goes to the top of
the loop, an escalation plays its tone and will return to the gesture. It always completes. -/
def Obligations.TickInGesture : Prop :=
  ∀ (s : State) (d p : Bool), s.sch.phase = .gesture →
    (∃ t, exec (.tick d p) s = .next t) ∧
    ∃ u, execAll [.dbSample .dial d, .dbSample .pulse p, .pcStep false] s = .next u ∧
      (u.pcOut = .outNone ∨ u.pcOut = .outPulse → exec (.tick d p) s = .next u) ∧
      (u.pcOut = .outEsc →
        let c : Code := if u.pc.esc = 1 then 13 else if u.pc.esc = 2 then 14 else 15
        let ms := if u.pc.esc = 1 then s.par.beepLowMs else s.par.tuneMs
        exec (.tick d p) s = .next { u with
          fsm := { u.fsm with menu := if u.pc.esc = 1 then 1 else if u.pc.esc = 2 then 2 else 3 }
          act := .tone c ms
          out := u.out ++ [.tone c ms]
          sch := { u.sch with retGesture := true, phase := .tone } }) ∧
      (u.pcOut = .outEnd → u.pc.digitValid = false → exec (.tick d p) s = exec .actNone u) ∧
      (u.pcOut = .outEnd → u.pc.digitValid = true →
        ∃ v, exec (digitInstr u.pc.digit) u = .next v ∧ exec (.tick d p) s = exec v.act.toInstr v)

/-! ### The whole machine -/

/-- The reset state is legal (rule R45; the trace and the parameters are the model's). -/
def Obligations.ResetIsLegal : Prop := Legal State.reset ∧ Quiescent State.reset

/-- Rule R45 with what makes it inductive: from any legal state a clock period, whatever its pins, leads to a legal
state. -/
def Obligations.StepKeepsLegal : Prop := ∀ s t : State, Legal s → step s = .next t → Legal t

/-- Rule R280: "No operation of the block raises an exception, faults, traps or returns an error." Every instruction
completes, in every state, with every operand. -/
def Obligations.EveryInstructionCompletes : Prop := ∀ (i : Instr) (s : State), ∃ t, exec i s = .next t

/-- Rules R280, R347: a legal state never stops. Its parameters hold and its pins are a clock period's, so neither of the
model's refusals (log entries 9, 13) meets it. -/
def Obligations.LegalNeverStops : Prop := ∀ s : State, Legal s → ∃ t, step s = .next t

/-- `RESET` recovers the block whatever its registers hold (rules R320, R340). -/
def Obligations.ResetRecovers : Prop :=
  ∀ s t : State, s.ps.wf → s.par.valid = true → pinsOnly s → exec .reset s = .next t → Legal t ∧ Quiescent t

/-- No instruction breaks the store's canonical form, which is the model's own (log entry 14): the spec's store has no
layout that a rule speaks of. -/
def Obligations.StoreFormKept : Prop := ∀ (i : Instr) (s t : State), s.ps.wf → exec i s = .next t → t.ps.wf

/-- No instruction changes the build's parameters, which are constants of one build (rules R8, R20), nor the trace; and
the store changes by a commit or an `ST_WRITE` alone (rules R64, R322). -/
def Obligations.BuildAndStoreFrame : Prop :=
  ∀ (i : Instr) (s t : State), exec i s = .next t →
    t.par = s.par ∧ t.input = s.input ∧ t.clock = s.clock ∧
    (i ≠ .irqw → i ≠ .irql → i ≠ .timeout → (∀ slot data, i ≠ .stWrite slot data) → t.ps = s.ps)

/-- Rule R249: every phase transition of every event is one of the table's, and every other pair of phase and event leaves
the phase as it is. -/
def Obligations.PhaseGraph : Prop :=
  ∀ (i : Instr) (s t : State), isEvent i = true → exec i s = .next t → t.sch.phase ∈ phaseTargets s.sch.phase i

/-- Rule R296: an event emits at most one `TONE`, with none outstanding or in the step that takes the `TDONE` of the one
before; and a phase that waits for `TDONE` is one in which a `TONE` is outstanding. -/
def Obligations.OneToneOutstanding : Prop :=
  ∀ (i : Instr) (s t : State), isEvent i = true → exec i s = .next t →
    ∃ new, t.out = s.out ++ new ∧ (new.filter isTone).length ≤ 1 ∧
      (new.any isTone = true → waitsTone t.sch.phase = true ∧ (waitsTone s.sch.phase = true → i = .tdone)) ∧
      (waitsTone t.sch.phase = true → new.any isTone = true ∨ (waitsTone s.sch.phase = true ∧ i ≠ .tdone))

/-- Rule R297: `ARM` is emitted only directly before `SLEEP`, `DISARM` only at a wake, and they alternate, in step with
the block's record of them. -/
def Obligations.WatchdogAlternates : Prop :=
  ∀ (i : Instr) (s t : State), isEvent i = true → i ≠ .reset → (s.sch.wdtArmed = true → s.sch.phase = .sleep) →
    exec i s = .next t →
    ∃ new, t.out = s.out ++ new ∧
      (s.sch.wdtArmed = false →
        (new.filter isWatchdog = [] ∧ t.sch.wdtArmed = false) ∨
        (∃ pre, new = pre ++ [.arm 3, .sleep] ∧ pre.filter isWatchdog = [] ∧ t.sch.wdtArmed = true)) ∧
      (s.sch.wdtArmed = true →
        (new = [] ∧ t.sch.wdtArmed = true) ∨
        (∃ post, new = .disarm :: post ∧ post.filter isWatchdog = [] ∧ t.sch.wdtArmed = false ∧
          (i = .irqw ∨ i = .irql)))

/-- Rule R301: in the sleep phase every register holds: `TICK` and `TDONE` are ignored, and `ETICK` finds the hold counter
stopped. -/
def Obligations.SleepingBlockHolds : Prop :=
  ∀ (s : State) (d p : Bool), Legal s → s.sch.phase = .sleep →
    exec (.tick d p) s = .next s ∧ exec .tdone s = .next s ∧ exec .etick s = .next s ∧ exec (.nop d p) s = .next s
end

