-- ==== Sys2Proof/Laws/Encoding.lean ====
section
/-! SUPPORT. The fields of the words the encoder makes, and of any word: what the decoder reads from each field, and a word
put together from its fields. Then the data bus of rule R97 as a number in base 32. -/

namespace Sys2Proof

/-! ### ACT words (rule R106) -/

/-- A bit of an `ACT` word. -/
theorem getLsbD_actWord (k : BitVec 2) (c : Code) (m : BitVec 16) (s : BitVec 3) (j : Nat) :
    (actWord k c m s).getLsbD j =
      if j < 3 then s.getLsbD j else if j < 19 then m.getLsbD (j - 3)
      else if j < 24 then c.getLsbD (j - 19) else k.getLsbD (j - 24) := by
  have e : actWord k c m s = ((k ++ c : BitVec (2 + 5)) ++ m : BitVec (2 + 5 + 16)) ++ s := rfl
  rw [e, BitVec.getLsbD_append, BitVec.getLsbD_append, BitVec.getLsbD_append]
  by_cases h1 : j < 3
  · simp [h1]
  · by_cases h2 : j < 19
    · simp [h1, h2, show j - 3 < 16 by omega]
    · by_cases h3 : j < 24
      · simp [h1, h2, h3, show ¬ (j - 3 < 16) by omega, show j - 19 < 5 by omega, show j - 3 - 16 = j - 19 by omega]
      · simp [h1, h2, h3, show ¬ (j - 3 < 16) by omega, show ¬ (j - 3 - 16 < 5) by omega,
          show j - 3 - 16 - 5 = j - 24 by omega]

theorem actWord_kind (k : BitVec 2) (c : Code) (m : BitVec 16) (s : BitVec 3) :
    (actWord k c m s).extractLsb' 24 2 = k := by
  ext i hi
  simp [getLsbD_actWord, BitVec.getLsbD_eq_getElem hi, show ¬ (24 + i < 3) by omega, show ¬ (24 + i < 19) by omega]

theorem actWord_code (k : BitVec 2) (c : Code) (m : BitVec 16) (s : BitVec 3) :
    (actWord k c m s).extractLsb' 19 5 = c := by
  ext i hi
  simp [getLsbD_actWord, BitVec.getLsbD_eq_getElem hi, show 19 + i < 24 by omega]
  intros; omega

theorem actWord_ms (k : BitVec 2) (c : Code) (m : BitVec 16) (s : BitVec 3) :
    (actWord k c m s).extractLsb' 3 16 = m := by
  ext i hi
  simp [getLsbD_actWord, BitVec.getLsbD_eq_getElem hi, show 3 + i < 19 by omega]

theorem actWord_slot (k : BitVec 2) (c : Code) (m : BitVec 16) (s : BitVec 3) :
    (actWord k c m s).extractLsb' 0 3 = s := by
  ext i hi
  simp [getLsbD_actWord, hi]

/-- A bit of a kind-3 `ACT` word. -/
theorem getLsbD_actRest (k : BitVec 2) (r : BitVec 24) (j : Nat) :
    (k ++ r : BitVec 26).getLsbD j = if j < 24 then r.getLsbD j else k.getLsbD (j - 24) :=
  BitVec.getLsbD_append

theorem actRest_kind (k : BitVec 2) (r : BitVec 24) : (k ++ r : BitVec 26).extractLsb' 24 2 = k := by
  apply BitVec.eq_of_getLsbD_eq
  intro i hi
  rw [BitVec.getLsbD_extractLsb', getLsbD_actRest]
  simp [hi]

theorem actRest_rest (k : BitVec 2) (r : BitVec 24) : (k ++ r : BitVec 26).extractLsb' 0 24 = r := by
  apply BitVec.eq_of_getLsbD_eq
  intro i hi
  rw [BitVec.getLsbD_extractLsb', getLsbD_actRest]
  simp [hi]

/-- An `ACT` word is made of its four fields. -/
theorem actWord_of_fields (w : BitVec 26) :
    actWord (w.extractLsb' 24 2) (w.extractLsb' 19 5) (w.extractLsb' 3 16) (w.extractLsb' 0 3) = w := by
  apply BitVec.eq_of_getLsbD_eq
  intro i hi
  rw [getLsbD_actWord]
  simp only [BitVec.getLsbD_extractLsb']
  split
  · simp [*]
  · split
    · simp [show i - 3 < 16 by omega, show 3 + (i - 3) = i by omega]
    · split
      · simp [show i - 19 < 5 by omega, show 19 + (i - 19) = i by omega]
      · simp [show i - 24 < 2 by omega, show 24 + (i - 24) = i by omega]

/-! ### CMD words (rules R94, R95) -/

/-- A bit of a `CMD` word. -/
theorem getLsbD_cmdWord (op : BitVec 3) (r : BitVec 21) (j : Nat) :
    (cmdWord op r).getLsbD j = if j < 21 then r.getLsbD j else op.getLsbD (j - 21) := by
  have e : cmdWord op r = (op ++ r : BitVec (3 + 21)) := rfl
  rw [e, BitVec.getLsbD_append]

/-- A bit of the two operands of `TONE`. -/
theorem getLsbD_toneBits (c : Code) (m : BitVec 16) (j : Nat) :
    (c ++ m : BitVec 21).getLsbD j = if j < 16 then m.getLsbD j else c.getLsbD (j - 16) :=
  BitVec.getLsbD_append

theorem cmdWord_op (op : BitVec 3) (r : BitVec 21) : (cmdWord op r).extractLsb' 21 3 = op := by
  ext i hi
  simp [getLsbD_cmdWord, BitVec.getLsbD_eq_getElem hi]

theorem cmdWord_rest (op : BitVec 3) (r : BitVec 21) : (cmdWord op r).extractLsb' 0 21 = r := by
  ext i hi
  simp [getLsbD_cmdWord, hi]

theorem cmdWord_code (op : BitVec 3) (c : Code) (m : BitVec 16) : (cmdWord op (c ++ m)).extractLsb' 16 5 = c := by
  ext i hi
  simp [getLsbD_cmdWord, getLsbD_toneBits, BitVec.getLsbD_eq_getElem hi]
  omega

theorem cmdWord_ms (op : BitVec 3) (c : Code) (m : BitVec 16) : (cmdWord op (c ++ m)).extractLsb' 0 16 = m := by
  ext i hi
  simp [getLsbD_cmdWord, getLsbD_toneBits, hi]
  intros; omega

/-- The three fields of a `CMD` word with a 3-bit operand. -/
theorem cmdWord3_fields (op low : BitVec 3) : (cmdWord3 op low).extractLsb' 21 3 = op ∧
    (cmdWord3 op low).extractLsb' 0 3 = low ∧ (cmdWord3 op low).extractLsb' 3 18 = 0 := by
  revert op low
  decide

/-- A `CMD` word is made of its opcode and the 21 bits below it. -/
theorem cmdWord_of_fields (w : BitVec 24) : cmdWord (w.extractLsb' 21 3) (w.extractLsb' 0 21) = w := by
  apply BitVec.eq_of_getLsbD_eq
  intro i hi
  rw [getLsbD_cmdWord]
  simp only [BitVec.getLsbD_extractLsb']
  split
  · simp [*]
  · simp [show i - 21 < 3 by omega, show 21 + (i - 21) = i by omega]

/-- The 21 bits of a `TONE` are its two operands. -/
theorem toneBits_of_fields (w : BitVec 24) :
    (w.extractLsb' 16 5 ++ w.extractLsb' 0 16 : BitVec 21) = w.extractLsb' 0 21 := by
  apply BitVec.eq_of_getLsbD_eq
  intro i hi
  rw [getLsbD_toneBits]
  simp only [BitVec.getLsbD_extractLsb']
  split
  · simp [*]
  · simp [show i - 16 < 5 by omega, show 16 + (i - 16) = i by omega, hi]

/-- A `CMD` word with zeros in bits 20 to 3 is made of its opcode and its 3-bit operand. -/
theorem cmdWord3_of_fields (w : BitVec 24) (h : w.extractLsb' 3 18 = 0) :
    cmdWord3 (w.extractLsb' 21 3) (w.extractLsb' 0 3) = w := by
  have e : ∀ a b : BitVec 3, cmdWord3 a b = cmdWord a (0#18 ++ b) := by decide
  have app : ∀ (a : BitVec 18) (b : BitVec 3) (j : Nat),
      (a ++ b : BitVec 21).getLsbD j = if j < 3 then b.getLsbD j else a.getLsbD (j - 3) :=
    fun a b j => BitVec.getLsbD_append
  have low : (0#18 ++ w.extractLsb' 0 3 : BitVec 21) = w.extractLsb' 0 21 := by
    apply BitVec.eq_of_getLsbD_eq
    intro i hi
    rw [app]
    split
    · simp [*]
    · rw [show (0#18) = w.extractLsb' 3 18 from h.symm]
      simp only [BitVec.getLsbD_extractLsb']
      simp [show i - 3 < 18 by omega, show 3 + (i - 3) = i by omega, hi]
  rw [e, low, cmdWord_of_fields]

/-! ### The data bus (rule R97) -/

/-- A digit of the bus number is a cell of the list. -/
theorem busNumber_digit (cs : List Code) (i : Nat) (h : i < cs.length) :
    busNumber cs / 32 ^ i % 32 = cs[i].toNat := by
  induction cs generalizing i with
  | nil => simp at h
  | cons c cs ih =>
    have hc : c.toNat < 32 := c.isLt
    cases i with
    | zero => simp [busNumber]; omega
    | succ i =>
      simp only [List.length_cons] at h
      rw [List.getElem_cons_succ, ← ih i (by omega), Nat.pow_succ, Nat.mul_comm (32 ^ i) 32, ← Nat.div_div_eq_div_mul]
      simp only [busNumber]
      congr 2
      omega

/-- The bus number of `n` cells has `n` digits. -/
theorem busNumber_lt (cs : List Code) : busNumber cs < 32 ^ cs.length := by
  induction cs with
  | nil => simp [busNumber]
  | cons c cs ih => have hc : c.toNat < 32 := c.isLt; simp only [busNumber, List.length_cons, Nat.pow_succ]; omega

/-- The number made of the digits of a number is that number, cut to as many digits. -/
theorem busNumber_digits (n v : Nat) :
    busNumber ((List.range n).map fun i => BitVec.ofNat 5 (v / 32 ^ i)) = v % 32 ^ n := by
  induction n generalizing v with
  | zero => simp [busNumber, Nat.mod_one]
  | succ n ih =>
    rw [List.range_succ_eq_map, List.map_cons, List.map_map, busNumber]
    have e : (List.range n).map ((fun i => BitVec.ofNat 5 (v / 32 ^ i)) ∘ Nat.succ) =
        (List.range n).map fun i => BitVec.ofNat 5 (v / 32 / 32 ^ i) := by
      congr 1
      funext i
      simp [Nat.pow_succ, Nat.div_div_eq_div_mul, Nat.mul_comm]
    rw [e, ih]
    simp [Nat.pow_succ]
    rw [Nat.mul_comm (32 ^ n) 32, Nat.mod_mul]

/-- A slot put on the bus is read back from it. -/
theorem cellsOfBus_busOfCells (x : Slot) : cellsOfBus (busOfCells x) = x := by
  apply Vector.ext
  intro i hi
  simp only [cellsOfBus, Vector.getElem_ofFn, busOfCells]
  apply BitVec.eq_of_toNat_eq
  have hl := busNumber_lt x.toList
  have hd := busNumber_digit x.toList i (by simpa using hi)
  have hx : x.toList.length = 30 := by simp
  have h2 : (32 : Nat) ^ 30 = 2 ^ 150 := by norm_num
  rw [hx, h2] at hl
  simp only [codeW, slotCap, busW, Nat.reduceMul]
  rw [BitVec.extractLsb'_toNat, BitVec.toNat_ofNat, Nat.shiftRight_eq_div_pow, Nat.mod_eq_of_lt hl, Nat.pow_mul]
  simpa using hd

/-- A bus is the bus of the slot read from it. -/
theorem busOfCells_cellsOfBus (wd : BitVec busW) : busOfCells (cellsOfBus wd) = wd := by
  have e : (cellsOfBus wd).toList = (List.range slotCap).map fun i => BitVec.ofNat 5 (wd.toNat / 32 ^ i) := by
    apply List.ext_getElem
    · simp
    · intro i h1 h2
      simp at h1
      simp [cellsOfBus]
      apply BitVec.eq_of_toNat_eq
      simp [Nat.shiftRight_eq_div_pow, Nat.pow_mul, codeW]
  apply BitVec.eq_of_toNat_eq
  have h2 : (32 : Nat) ^ slotCap = 2 ^ busW := by norm_num [slotCap, busW, codeW]
  rw [busOfCells, e, busNumber_digits, BitVec.toNat_ofNat, h2, Nat.mod_mod, Nat.mod_eq_of_lt wd.isLt]

end Sys2Proof
end

