-- ==== Sys2Proof/Laws/Memory.lean ====
section
/-! SUPPORT. The Persistent Store: a read after a write, every other cell left alone, and the canonical form kept by
every operation (rules R63, R68; log entry 14). -/

namespace Sys2Proof.Machine

/-- Strictly rising addresses, the part of the canonical form that reads depend on. -/
abbrev Memory.rising (m : Memory) : Prop := m.Pairwise (fun c d => c.1 < d.1)

/-- In a rising store an address below the first entry is unlisted. -/
theorem Memory.read_of_lt (m : Memory) (a : Nat) (h : ∀ c ∈ m, a < c.1) : m.read a = Memory.unlisted := by
  induction m with
  | nil => rfl
  | cons c m ih =>
    obtain ⟨k, v⟩ := c
    have hk : a < k := h (k, v) (by simp)
    have hne : k ≠ a := by omega
    simp only [Memory.read, hne, if_false]
    exact ih fun d hd => h d (by simp [hd])

/-- The entries of a written store: the new one, or entries that were there. -/
theorem Memory.mem_write {m : Memory} {a : Nat} {b : BitVec 8} {c : Host.Cell} (h : c ∈ m.write a b) :
    (c = (a, b) ∧ b ≠ Memory.unlisted) ∨ c ∈ m := by
  induction m with
  | nil =>
    simp only [Memory.write] at h
    split at h
    · exact .inr h
    · rename_i hb
      exact .inl ⟨by simpa using h, hb⟩
  | cons d m ih =>
    obtain ⟨k, v⟩ := d
    simp only [Memory.write] at h
    split at h
    · rcases List.mem_cons.mp h with h | h
      · simp [h]
      · rcases ih h with h | h
        · exact .inl h
        · exact .inr (by simp [h])
    · split at h
      · split at h
        · exact .inr (by simp [h])
        · rename_i hb
          rcases List.mem_cons.mp h with h | h
          · exact .inl ⟨h, hb⟩
          · exact .inr (by simp [h])
      · split at h
        · exact .inr h
        · rename_i hb
          rcases List.mem_cons.mp h with h | h
          · exact .inl ⟨h, hb⟩
          · exact .inr h

/-- A write keeps the addresses rising. -/
theorem Memory.write_rising {m : Memory} (hm : m.rising) (a : Nat) (b : BitVec 8) : (m.write a b).rising := by
  induction m with
  | nil => by_cases hb : b = Memory.unlisted <;> simp [Memory.rising, Memory.write, hb]
  | cons d m ih =>
    obtain ⟨k, v⟩ := d
    have hd := List.pairwise_cons.mp hm
    simp only [Memory.rising, Memory.write]
    split
    · rename_i hk
      refine List.pairwise_cons.mpr ⟨fun c hc => ?_, ih hd.2⟩
      rcases Memory.mem_write hc with h | h
      · simpa [h.1] using hk
      · exact hd.1 c h
    · split
      · rename_i hk
        split
        · exact hd.2
        · exact List.pairwise_cons.mpr ⟨fun c hc => hk ▸ hd.1 c hc, hd.2⟩
      · split
        · exact hm
        · refine List.pairwise_cons.mpr ⟨fun c hc => ?_, hm⟩
          rcases List.mem_cons.mp hc with h | h
          · subst h; simp only; omega
          · have := hd.1 c h
            simp only at this ⊢; omega

/-- A read after a write to the same address gives the byte written. -/
theorem Memory.read_write_same {m : Memory} (hm : m.rising) (a : Nat) (b : BitVec 8) : (m.write a b).read a = b := by
  induction m with
  | nil => by_cases hb : b = Memory.unlisted <;> simp [Memory.write, Memory.read, hb]
  | cons d m ih =>
    obtain ⟨k, v⟩ := d
    have hd := List.pairwise_cons.mp hm
    simp only [Memory.write]
    split
    · rename_i hk
      have hne : k ≠ a := by omega
      simp only [Memory.read, hne, if_false]
      exact ih hd.2
    · split
      · rename_i hk
        split
        · rename_i hb
          rw [hb]
          exact Memory.read_of_lt m a fun c hc => hk ▸ hd.1 c hc
        · simp [Memory.read]
      · split
        · rename_i hb
          rw [hb]
          refine Memory.read_of_lt _ a fun c hc => ?_
          rcases List.mem_cons.mp hc with h | h
          · subst h; simp only; omega
          · have := hd.1 c h
            simp only at this ⊢; omega
        · simp [Memory.read]

/-- A write leaves every other address alone. -/
theorem Memory.read_write_other (m : Memory) {a x : Nat} (b : BitVec 8) (h : x ≠ a) :
    (m.write a b).read x = m.read x := by
  induction m with
  | nil => by_cases hb : b = Memory.unlisted <;> simp [Memory.write, Memory.read, hb, Ne.symm h]
  | cons d m ih =>
    obtain ⟨k, v⟩ := d
    simp only [Memory.write]
    split
    · simp only [Memory.read, ih]
    · split
      · rename_i hk
        split <;> simp [Memory.read, hk, Ne.symm h]
      · split <;> simp [Memory.read, Ne.symm h]

/-- A write of a code to a cell of slots 1 to 7 keeps the canonical form. -/
theorem Memory.write_wf {m : Memory} (hm : m.wf) {a : Nat} {b : BitVec 8} (h1 : slotCap ≤ a)
    (h2 : a < slotCap * nSlots) (hb : b.toNat < 2 ^ codeW) :
    (m.write a b).wf := by
  refine ⟨Memory.write_rising hm.1 a b, fun c hc => ?_⟩
  rcases Memory.mem_write hc with h | h
  · simp only [h.1]
    exact ⟨h1, h2, hb, h.2⟩
  · exact hm.2 c h

/-- Writing a list of codes keeps the addresses rising. -/
theorem Memory.writeCells_rising {m : Memory} (hm : m.rising) (a : Nat) (cs : List Code) :
    (m.writeCells a cs).rising := by
  induction cs generalizing m a with
  | nil => exact hm
  | cons c cs ih => exact ih (Memory.write_rising hm a _) (a + 1)

/-- Writing a list of codes leaves every address outside the list's cells alone. -/
theorem Memory.read_writeCells_other (m : Memory) {a x : Nat} (cs : List Code) (h : x < a ∨ a + cs.length ≤ x) :
    (m.writeCells a cs).read x = m.read x := by
  induction cs generalizing m a with
  | nil => rfl
  | cons c cs ih =>
    simp only [List.length_cons] at h
    rw [Memory.writeCells, ih _ (by omega), Memory.read_write_other _ _ (by omega)]

/-- After a list of codes is written, its cells hold it. -/
theorem Memory.read_writeCells {m : Memory} (hm : m.rising) (a : Nat) (cs : List Code) (i : Nat) (h : i < cs.length) :
    (m.writeCells a cs).read (a + i) = cs[i].setWidth 8 := by
  induction cs generalizing m a i with
  | nil => simp at h
  | cons c cs ih =>
    cases i with
    | zero =>
      simp only [Memory.writeCells, Nat.add_zero, List.getElem_cons_zero]
      rw [Memory.read_writeCells_other _ cs (by omega), Memory.read_write_same hm]
    | succ i =>
      simp only [Memory.writeCells, List.getElem_cons_succ]
      rw [show a + (i + 1) = a + 1 + i by omega]
      exact ih (Memory.write_rising hm a _) (a + 1) i (by simpa using h)

/-- A code in a byte keeps to its width. -/
theorem code_setWidth_lt (c : Code) : (c.setWidth 8).toNat < 2 ^ codeW := by
  rw [BitVec.toNat_setWidth]
  exact lt_of_le_of_lt (Nat.mod_le _ _) c.isLt

/-- Writing codes to cells of slots 1 to 7 keeps the canonical form. -/
theorem Memory.writeCells_wf {m : Memory} (hm : m.wf) (a : Nat) (cs : List Code) (h1 : slotCap ≤ a)
    (h2 : a + cs.length ≤ slotCap * nSlots) : (m.writeCells a cs).wf := by
  induction cs generalizing m a with
  | nil => exact hm
  | cons c cs ih =>
    simp only [List.length_cons] at h2
    exact ih (Memory.write_wf hm h1 (by omega) (code_setWidth_lt c)) (a + 1) (by omega) (by omega)

/-- `MemRead` after `MemWrite` of the same slot gives the cells written (rules R63, R68 (b)). -/
theorem Memory.readSlot_writeSlot_same {m : Memory} (hm : m.rising) (slot : BitVec 3) (data : Slot) :
    (m.writeSlot slot data).readSlot slot = data := by
  refine Vector.ext fun i hi => ?_
  have h := Memory.read_writeCells hm (cellAddr slot 0) data.toList i (by simpa using hi)
  simp only [Memory.readSlot, Memory.writeSlot, Vector.getElem_ofFn]
  rw [show cellAddr slot i = cellAddr slot 0 + i by simp [cellAddr], h]
  simp

/-- `MemWrite` of a slot leaves every address outside the slot's cells alone. -/
theorem Memory.read_writeSlot_other (m : Memory) (slot : BitVec 3) (data : Slot) (x : Nat)
    (h : ∀ i, i < slotCap → x ≠ cellAddr slot i) : (m.writeSlot slot data).read x = m.read x := by
  refine Memory.read_writeCells_other m _ ?_
  by_contra hx
  refine h (x - cellAddr slot 0) ?_ ?_ <;> simp [cellAddr, slotCap] at hx ⊢ <;> omega

/-- `MemWrite` of a slot leaves the other slots alone. -/
theorem Memory.readSlot_writeSlot_other (m : Memory) {slot other : BitVec 3} (data : Slot) (h : other ≠ slot) :
    (m.writeSlot slot data).readSlot other = m.readSlot other := by
  refine Vector.ext fun i hi => ?_
  simp only [Memory.readSlot, Vector.getElem_ofFn]
  rw [Memory.read_writeSlot_other m slot data _ fun j hj hx => ?_]
  refine h (BitVec.eq_of_toNat_eq ?_)
  simp only [cellAddr, slotCap] at hi hj hx
  omega

/-- `MemWrite` of a slot 1 to 7 keeps the canonical form. -/
theorem Memory.writeSlot_wf {m : Memory} (hm : m.wf) {slot : BitVec 3} (h : slot ≠ 0) (data : Slot) :
    (m.writeSlot slot data).wf := by
  have h0 : slot.toNat ≠ 0 := fun h' => h (BitVec.eq_of_toNat_eq (by simpa using h'))
  have := slot.isLt
  refine Memory.writeCells_wf hm _ _ ?_ ?_ <;> simp [cellAddr, slotCap, nSlots] <;> omega

/-- The store after reset is in canonical form. -/
theorem Memory.reset_wf : State.reset.ps.wf := by decide

/-- Equal stores are equal data: two canonical stores that read the same everywhere are the same list. -/
theorem Memory.ext_of_read {m n : Memory} (hm : m.wf) (hn : n.wf) (h : ∀ a, m.read a = n.read a) : m = n := by
  induction m generalizing n with
  | nil =>
    cases n with
    | nil => rfl
    | cons d n =>
      have := h d.1
      simp [Memory.read] at this
      exact absurd this.symm (hn.2 d (by simp)).2.2.2
  | cons c m ih =>
    obtain ⟨k, v⟩ := c
    have hc := List.pairwise_cons.mp hm.1
    cases n with
    | nil =>
      have := h k
      simp [Memory.read] at this
      exact absurd this (hm.2 (k, v) (by simp)).2.2.2
    | cons d n =>
      obtain ⟨l, w⟩ := d
      have hd := List.pairwise_cons.mp hn.1
      have hkl : k = l := by
        by_contra hne
        rcases Nat.lt_or_gt_of_ne hne with hlt | hlt
        · have h1 := h k
          rw [Memory.read_of_lt ((l, w) :: n) k] at h1
          · simp [Memory.read] at h1
            exact (hm.2 (k, v) (by simp)).2.2.2 h1
          · intro c hc'
            rcases List.mem_cons.mp hc' with h2 | h2
            · simpa [h2] using hlt
            · exact lt_trans hlt (hd.1 c h2)
        · have h1 := h l
          rw [Memory.read_of_lt ((k, v) :: m) l] at h1
          · simp [Memory.read] at h1
            exact (hn.2 (l, w) (by simp)).2.2.2 h1.symm
          · intro c hc'
            rcases List.mem_cons.mp hc' with h2 | h2
            · simpa [h2] using hlt
            · exact lt_trans hlt (hc.1 c h2)
      subst hkl
      have hv : v = w := by simpa [Memory.read] using h k
      subst hv
      congr 1
      refine ih ⟨hc.2, fun c h' => hm.2 c (by simp [h'])⟩ ⟨hd.2, fun c h' => hn.2 c (by simp [h'])⟩ fun a => ?_
      by_cases ha : k = a
      · subst ha
        rw [Memory.read_of_lt m k fun c h' => hc.1 c h', Memory.read_of_lt n k fun c h' => hd.1 c h']
      · have := h a
        simpa [Memory.read, ha] using this

end Sys2Proof.Machine
end

