-- ==== Sys2Proof/Laws/State.lean ====
section
/-! SUPPORT. One lemma per field per update of the state, each true by rfl, so that no proof unfolds a record update. -/

namespace Sys2Proof.Machine

/-! ### setDb .dial -/

@[simp] theorem State.setDb_dial_dbDial (s : State) (x : DbLine) : (s.setDb .dial x).dbDial = x := rfl
@[simp] theorem State.setDb_dial_dbPulse (s : State) (x : DbLine) : (s.setDb .dial x).dbPulse = s.dbPulse := rfl
@[simp] theorem State.setDb_dial_pc (s : State) (x : DbLine) : (s.setDb .dial x).pc = s.pc := rfl
@[simp] theorem State.setDb_dial_fsm (s : State) (x : DbLine) : (s.setDb .dial x).fsm = s.fsm := rfl
@[simp] theorem State.setDb_dial_sch (s : State) (x : DbLine) : (s.setDb .dial x).sch = s.sch := rfl
@[simp] theorem State.setDb_dial_ps (s : State) (x : DbLine) : (s.setDb .dial x).ps = s.ps := rfl
@[simp] theorem State.setDb_dial_par (s : State) (x : DbLine) : (s.setDb .dial x).par = s.par := rfl
@[simp] theorem State.setDb_dial_out (s : State) (x : DbLine) : (s.setDb .dial x).out = s.out := rfl
@[simp] theorem State.setDb_dial_pcOut (s : State) (x : DbLine) : (s.setDb .dial x).pcOut = s.pcOut := rfl
@[simp] theorem State.setDb_dial_act (s : State) (x : DbLine) : (s.setDb .dial x).act = s.act := rfl
@[simp] theorem State.setDb_dial_input (s : State) (x : DbLine) : (s.setDb .dial x).input = s.input := rfl
@[simp] theorem State.setDb_dial_clock (s : State) (x : DbLine) : (s.setDb .dial x).clock = s.clock := rfl

/-! ### setDb .pulse -/

@[simp] theorem State.setDb_pulse_dbDial (s : State) (x : DbLine) : (s.setDb .pulse x).dbDial = s.dbDial := rfl
@[simp] theorem State.setDb_pulse_dbPulse (s : State) (x : DbLine) : (s.setDb .pulse x).dbPulse = x := rfl
@[simp] theorem State.setDb_pulse_pc (s : State) (x : DbLine) : (s.setDb .pulse x).pc = s.pc := rfl
@[simp] theorem State.setDb_pulse_fsm (s : State) (x : DbLine) : (s.setDb .pulse x).fsm = s.fsm := rfl
@[simp] theorem State.setDb_pulse_sch (s : State) (x : DbLine) : (s.setDb .pulse x).sch = s.sch := rfl
@[simp] theorem State.setDb_pulse_ps (s : State) (x : DbLine) : (s.setDb .pulse x).ps = s.ps := rfl
@[simp] theorem State.setDb_pulse_par (s : State) (x : DbLine) : (s.setDb .pulse x).par = s.par := rfl
@[simp] theorem State.setDb_pulse_out (s : State) (x : DbLine) : (s.setDb .pulse x).out = s.out := rfl
@[simp] theorem State.setDb_pulse_pcOut (s : State) (x : DbLine) : (s.setDb .pulse x).pcOut = s.pcOut := rfl
@[simp] theorem State.setDb_pulse_act (s : State) (x : DbLine) : (s.setDb .pulse x).act = s.act := rfl
@[simp] theorem State.setDb_pulse_input (s : State) (x : DbLine) : (s.setDb .pulse x).input = s.input := rfl
@[simp] theorem State.setDb_pulse_clock (s : State) (x : DbLine) : (s.setDb .pulse x).clock = s.clock := rfl

@[simp] theorem State.setDb_pc (s : State) (l : Line) (x : DbLine) : (s.setDb l x).pc = s.pc := by
  cases l <;> rfl
@[simp] theorem State.setDb_fsm (s : State) (l : Line) (x : DbLine) : (s.setDb l x).fsm = s.fsm := by
  cases l <;> rfl
@[simp] theorem State.setDb_sch (s : State) (l : Line) (x : DbLine) : (s.setDb l x).sch = s.sch := by
  cases l <;> rfl
@[simp] theorem State.setDb_ps (s : State) (l : Line) (x : DbLine) : (s.setDb l x).ps = s.ps := by
  cases l <;> rfl
@[simp] theorem State.setDb_par (s : State) (l : Line) (x : DbLine) : (s.setDb l x).par = s.par := by
  cases l <;> rfl
@[simp] theorem State.setDb_out (s : State) (l : Line) (x : DbLine) : (s.setDb l x).out = s.out := by
  cases l <;> rfl
@[simp] theorem State.setDb_pcOut (s : State) (l : Line) (x : DbLine) : (s.setDb l x).pcOut = s.pcOut := by
  cases l <;> rfl
@[simp] theorem State.setDb_act (s : State) (l : Line) (x : DbLine) : (s.setDb l x).act = s.act := by
  cases l <;> rfl
@[simp] theorem State.setDb_input (s : State) (l : Line) (x : DbLine) : (s.setDb l x).input = s.input := by
  cases l <;> rfl
@[simp] theorem State.setDb_clock (s : State) (l : Line) (x : DbLine) : (s.setDb l x).clock = s.clock := by
  cases l <;> rfl

@[simp] theorem State.db_dial (s : State) : s.db .dial = s.dbDial := rfl
@[simp] theorem State.db_pulse (s : State) : s.db .pulse = s.dbPulse := rfl
@[simp] theorem State.setDb_db (s : State) (l : Line) (x : DbLine) : (s.setDb l x).db l = x := by cases l <;> rfl
theorem State.setDb_db_other (s : State) (l k : Line) (x : DbLine) (h : k ≠ l) : (s.setDb l x).db k = s.db k := by
  cases l <;> cases k <;> first | rfl | exact absurd rfl h
@[simp] theorem State.setDb_setDb (s : State) (l : Line) (x y : DbLine) : (s.setDb l x).setDb l y = s.setDb l y := by
  cases l <;> rfl

/-! ### setPc -/

@[simp] theorem State.setPc_dbDial (s : State) (x : PulseCounter) : (s.setPc x).dbDial = s.dbDial := rfl
@[simp] theorem State.setPc_dbPulse (s : State) (x : PulseCounter) : (s.setPc x).dbPulse = s.dbPulse := rfl
@[simp] theorem State.setPc_pc (s : State) (x : PulseCounter) : (s.setPc x).pc = x := rfl
@[simp] theorem State.setPc_fsm (s : State) (x : PulseCounter) : (s.setPc x).fsm = s.fsm := rfl
@[simp] theorem State.setPc_sch (s : State) (x : PulseCounter) : (s.setPc x).sch = s.sch := rfl
@[simp] theorem State.setPc_ps (s : State) (x : PulseCounter) : (s.setPc x).ps = s.ps := rfl
@[simp] theorem State.setPc_par (s : State) (x : PulseCounter) : (s.setPc x).par = s.par := rfl
@[simp] theorem State.setPc_out (s : State) (x : PulseCounter) : (s.setPc x).out = s.out := rfl
@[simp] theorem State.setPc_pcOut (s : State) (x : PulseCounter) : (s.setPc x).pcOut = s.pcOut := rfl
@[simp] theorem State.setPc_act (s : State) (x : PulseCounter) : (s.setPc x).act = s.act := rfl
@[simp] theorem State.setPc_input (s : State) (x : PulseCounter) : (s.setPc x).input = s.input := rfl
@[simp] theorem State.setPc_clock (s : State) (x : PulseCounter) : (s.setPc x).clock = s.clock := rfl

/-! ### setFsm -/

@[simp] theorem State.setFsm_dbDial (s : State) (x : DialFsm) : (s.setFsm x).dbDial = s.dbDial := rfl
@[simp] theorem State.setFsm_dbPulse (s : State) (x : DialFsm) : (s.setFsm x).dbPulse = s.dbPulse := rfl
@[simp] theorem State.setFsm_pc (s : State) (x : DialFsm) : (s.setFsm x).pc = s.pc := rfl
@[simp] theorem State.setFsm_fsm (s : State) (x : DialFsm) : (s.setFsm x).fsm = x := rfl
@[simp] theorem State.setFsm_sch (s : State) (x : DialFsm) : (s.setFsm x).sch = s.sch := rfl
@[simp] theorem State.setFsm_ps (s : State) (x : DialFsm) : (s.setFsm x).ps = s.ps := rfl
@[simp] theorem State.setFsm_par (s : State) (x : DialFsm) : (s.setFsm x).par = s.par := rfl
@[simp] theorem State.setFsm_out (s : State) (x : DialFsm) : (s.setFsm x).out = s.out := rfl
@[simp] theorem State.setFsm_pcOut (s : State) (x : DialFsm) : (s.setFsm x).pcOut = s.pcOut := rfl
@[simp] theorem State.setFsm_act (s : State) (x : DialFsm) : (s.setFsm x).act = s.act := rfl
@[simp] theorem State.setFsm_input (s : State) (x : DialFsm) : (s.setFsm x).input = s.input := rfl
@[simp] theorem State.setFsm_clock (s : State) (x : DialFsm) : (s.setFsm x).clock = s.clock := rfl

/-! ### setSch -/

@[simp] theorem State.setSch_dbDial (s : State) (x : Scheduler) : (s.setSch x).dbDial = s.dbDial := rfl
@[simp] theorem State.setSch_dbPulse (s : State) (x : Scheduler) : (s.setSch x).dbPulse = s.dbPulse := rfl
@[simp] theorem State.setSch_pc (s : State) (x : Scheduler) : (s.setSch x).pc = s.pc := rfl
@[simp] theorem State.setSch_fsm (s : State) (x : Scheduler) : (s.setSch x).fsm = s.fsm := rfl
@[simp] theorem State.setSch_sch (s : State) (x : Scheduler) : (s.setSch x).sch = x := rfl
@[simp] theorem State.setSch_ps (s : State) (x : Scheduler) : (s.setSch x).ps = s.ps := rfl
@[simp] theorem State.setSch_par (s : State) (x : Scheduler) : (s.setSch x).par = s.par := rfl
@[simp] theorem State.setSch_out (s : State) (x : Scheduler) : (s.setSch x).out = s.out := rfl
@[simp] theorem State.setSch_pcOut (s : State) (x : Scheduler) : (s.setSch x).pcOut = s.pcOut := rfl
@[simp] theorem State.setSch_act (s : State) (x : Scheduler) : (s.setSch x).act = s.act := rfl
@[simp] theorem State.setSch_input (s : State) (x : Scheduler) : (s.setSch x).input = s.input := rfl
@[simp] theorem State.setSch_clock (s : State) (x : Scheduler) : (s.setSch x).clock = s.clock := rfl

/-! ### setPhase -/

@[simp] theorem State.setPhase_dbDial (s : State) (x : Phase) : (s.setPhase x).dbDial = s.dbDial := rfl
@[simp] theorem State.setPhase_dbPulse (s : State) (x : Phase) : (s.setPhase x).dbPulse = s.dbPulse := rfl
@[simp] theorem State.setPhase_pc (s : State) (x : Phase) : (s.setPhase x).pc = s.pc := rfl
@[simp] theorem State.setPhase_fsm (s : State) (x : Phase) : (s.setPhase x).fsm = s.fsm := rfl
@[simp] theorem State.setPhase_sch (s : State) (x : Phase) : (s.setPhase x).sch = { s.sch with phase := x } := rfl
@[simp] theorem State.setPhase_ps (s : State) (x : Phase) : (s.setPhase x).ps = s.ps := rfl
@[simp] theorem State.setPhase_par (s : State) (x : Phase) : (s.setPhase x).par = s.par := rfl
@[simp] theorem State.setPhase_out (s : State) (x : Phase) : (s.setPhase x).out = s.out := rfl
@[simp] theorem State.setPhase_pcOut (s : State) (x : Phase) : (s.setPhase x).pcOut = s.pcOut := rfl
@[simp] theorem State.setPhase_act (s : State) (x : Phase) : (s.setPhase x).act = s.act := rfl
@[simp] theorem State.setPhase_input (s : State) (x : Phase) : (s.setPhase x).input = s.input := rfl
@[simp] theorem State.setPhase_clock (s : State) (x : Phase) : (s.setPhase x).clock = s.clock := rfl

/-! ### setPs -/

@[simp] theorem State.setPs_dbDial (s : State) (x : Memory) : (s.setPs x).dbDial = s.dbDial := rfl
@[simp] theorem State.setPs_dbPulse (s : State) (x : Memory) : (s.setPs x).dbPulse = s.dbPulse := rfl
@[simp] theorem State.setPs_pc (s : State) (x : Memory) : (s.setPs x).pc = s.pc := rfl
@[simp] theorem State.setPs_fsm (s : State) (x : Memory) : (s.setPs x).fsm = s.fsm := rfl
@[simp] theorem State.setPs_sch (s : State) (x : Memory) : (s.setPs x).sch = s.sch := rfl
@[simp] theorem State.setPs_ps (s : State) (x : Memory) : (s.setPs x).ps = x := rfl
@[simp] theorem State.setPs_par (s : State) (x : Memory) : (s.setPs x).par = s.par := rfl
@[simp] theorem State.setPs_out (s : State) (x : Memory) : (s.setPs x).out = s.out := rfl
@[simp] theorem State.setPs_pcOut (s : State) (x : Memory) : (s.setPs x).pcOut = s.pcOut := rfl
@[simp] theorem State.setPs_act (s : State) (x : Memory) : (s.setPs x).act = s.act := rfl
@[simp] theorem State.setPs_input (s : State) (x : Memory) : (s.setPs x).input = s.input := rfl
@[simp] theorem State.setPs_clock (s : State) (x : Memory) : (s.setPs x).clock = s.clock := rfl

/-! ### setPcOut -/

@[simp] theorem State.setPcOut_dbDial (s : State) (x : PcOut) : (s.setPcOut x).dbDial = s.dbDial := rfl
@[simp] theorem State.setPcOut_dbPulse (s : State) (x : PcOut) : (s.setPcOut x).dbPulse = s.dbPulse := rfl
@[simp] theorem State.setPcOut_pc (s : State) (x : PcOut) : (s.setPcOut x).pc = s.pc := rfl
@[simp] theorem State.setPcOut_fsm (s : State) (x : PcOut) : (s.setPcOut x).fsm = s.fsm := rfl
@[simp] theorem State.setPcOut_sch (s : State) (x : PcOut) : (s.setPcOut x).sch = s.sch := rfl
@[simp] theorem State.setPcOut_ps (s : State) (x : PcOut) : (s.setPcOut x).ps = s.ps := rfl
@[simp] theorem State.setPcOut_par (s : State) (x : PcOut) : (s.setPcOut x).par = s.par := rfl
@[simp] theorem State.setPcOut_out (s : State) (x : PcOut) : (s.setPcOut x).out = s.out := rfl
@[simp] theorem State.setPcOut_pcOut (s : State) (x : PcOut) : (s.setPcOut x).pcOut = x := rfl
@[simp] theorem State.setPcOut_act (s : State) (x : PcOut) : (s.setPcOut x).act = s.act := rfl
@[simp] theorem State.setPcOut_input (s : State) (x : PcOut) : (s.setPcOut x).input = s.input := rfl
@[simp] theorem State.setPcOut_clock (s : State) (x : PcOut) : (s.setPcOut x).clock = s.clock := rfl

/-! ### setAct -/

@[simp] theorem State.setAct_dbDial (s : State) (x : Action) : (s.setAct x).dbDial = s.dbDial := rfl
@[simp] theorem State.setAct_dbPulse (s : State) (x : Action) : (s.setAct x).dbPulse = s.dbPulse := rfl
@[simp] theorem State.setAct_pc (s : State) (x : Action) : (s.setAct x).pc = s.pc := rfl
@[simp] theorem State.setAct_fsm (s : State) (x : Action) : (s.setAct x).fsm = s.fsm := rfl
@[simp] theorem State.setAct_sch (s : State) (x : Action) : (s.setAct x).sch = s.sch := rfl
@[simp] theorem State.setAct_ps (s : State) (x : Action) : (s.setAct x).ps = s.ps := rfl
@[simp] theorem State.setAct_par (s : State) (x : Action) : (s.setAct x).par = s.par := rfl
@[simp] theorem State.setAct_out (s : State) (x : Action) : (s.setAct x).out = s.out := rfl
@[simp] theorem State.setAct_pcOut (s : State) (x : Action) : (s.setAct x).pcOut = s.pcOut := rfl
@[simp] theorem State.setAct_act (s : State) (x : Action) : (s.setAct x).act = x := rfl
@[simp] theorem State.setAct_input (s : State) (x : Action) : (s.setAct x).input = s.input := rfl
@[simp] theorem State.setAct_clock (s : State) (x : Action) : (s.setAct x).clock = s.clock := rfl

/-! ### emit -/

@[simp] theorem State.emit_dbDial (s : State) (c : Command) : (s.emit c).dbDial = s.dbDial := rfl
@[simp] theorem State.emit_dbPulse (s : State) (c : Command) : (s.emit c).dbPulse = s.dbPulse := rfl
@[simp] theorem State.emit_pc (s : State) (c : Command) : (s.emit c).pc = s.pc := rfl
@[simp] theorem State.emit_fsm (s : State) (c : Command) : (s.emit c).fsm = s.fsm := rfl
@[simp] theorem State.emit_sch (s : State) (c : Command) : (s.emit c).sch = s.sch := rfl
@[simp] theorem State.emit_ps (s : State) (c : Command) : (s.emit c).ps = s.ps := rfl
@[simp] theorem State.emit_par (s : State) (c : Command) : (s.emit c).par = s.par := rfl
@[simp] theorem State.emit_out (s : State) (c : Command) : (s.emit c).out = s.out ++ [c] := rfl
@[simp] theorem State.emit_pcOut (s : State) (c : Command) : (s.emit c).pcOut = s.pcOut := rfl
@[simp] theorem State.emit_act (s : State) (c : Command) : (s.emit c).act = s.act := rfl
@[simp] theorem State.emit_input (s : State) (c : Command) : (s.emit c).input = s.input := rfl
@[simp] theorem State.emit_clock (s : State) (c : Command) : (s.emit c).clock = s.clock := rfl

/-! ### The start of a clock period, and a word placed before the trace -/

@[simp] theorem beginClock_dbDial (s : State) : (beginClock s).dbDial = s.dbDial := rfl
@[simp] theorem beginClock_dbPulse (s : State) : (beginClock s).dbPulse = s.dbPulse := rfl
@[simp] theorem beginClock_pc (s : State) : (beginClock s).pc = s.pc := rfl
@[simp] theorem beginClock_fsm (s : State) : (beginClock s).fsm = s.fsm := rfl
@[simp] theorem beginClock_sch (s : State) : (beginClock s).sch = s.sch := rfl
@[simp] theorem beginClock_ps (s : State) : (beginClock s).ps = s.ps := rfl
@[simp] theorem beginClock_par (s : State) : (beginClock s).par = s.par := rfl
@[simp] theorem beginClock_out (s : State) : (beginClock s).out = [] := rfl
@[simp] theorem beginClock_pcOut (s : State) : (beginClock s).pcOut = .outNone := rfl
@[simp] theorem beginClock_act (s : State) : (beginClock s).act = .none := rfl
@[simp] theorem beginClock_input (s : State) : (beginClock s).input = s.input.tail := rfl
@[simp] theorem beginClock_clock (s : State) : (beginClock s).clock = s.clock + 1 := rfl

@[simp] theorem place_dbDial (w : PortWord) (s : State) : (place w s).dbDial = s.dbDial := rfl
@[simp] theorem place_dbPulse (w : PortWord) (s : State) : (place w s).dbPulse = s.dbPulse := rfl
@[simp] theorem place_pc (w : PortWord) (s : State) : (place w s).pc = s.pc := rfl
@[simp] theorem place_fsm (w : PortWord) (s : State) : (place w s).fsm = s.fsm := rfl
@[simp] theorem place_sch (w : PortWord) (s : State) : (place w s).sch = s.sch := rfl
@[simp] theorem place_ps (w : PortWord) (s : State) : (place w s).ps = s.ps := rfl
@[simp] theorem place_par (w : PortWord) (s : State) : (place w s).par = s.par := rfl
@[simp] theorem place_out (w : PortWord) (s : State) : (place w s).out = s.out := rfl
@[simp] theorem place_pcOut (w : PortWord) (s : State) : (place w s).pcOut = s.pcOut := rfl
@[simp] theorem place_act (w : PortWord) (s : State) : (place w s).act = s.act := rfl
@[simp] theorem place_input (w : PortWord) (s : State) : (place w s).input = w :: s.input := rfl
@[simp] theorem place_clock (w : PortWord) (s : State) : (place w s).clock = s.clock := rfl

@[simp] theorem fetch_place (w : PortWord) (s : State) : fetch (place w s) = w := rfl

end Sys2Proof.Machine
end

