-- ==== Sys2Proof/Laws/Ops.lean ====
section
/-! SUPPORT. What each shared operation can do, said once: an equation for the whole next state where one fits, else one
lemma with every case. A proof about a meaning cites these and unfolds no operation. -/

namespace Sys2Proof.Machine

/-! ### The updates, as record updates -/

theorem setDb_dial_eq (s : State) (x : DbLine) : s.setDb .dial x = { s with dbDial := x } := rfl
theorem setDb_pulse_eq (s : State) (x : DbLine) : s.setDb .pulse x = { s with dbPulse := x } := rfl

/-! ### debounce_filter -/

/-- The history of a line that has been at a level for eight samples. -/
theorem histOf_eq (level : Bool) : histOf level = if level then 0xFF else 0x00 := by cases level <;> rfl

/-- A sample at the present level shifts the history and reports nothing. -/
theorem dbSample_same (x : DbLine) :
    dbSample x.level x = { hist := shiftIn x.hist x.level, level := x.level, changed := false } := by
  obtain ⟨h, lv, c⟩ := x
  have : ∀ (lv : Bool) (h : BitVec 8), dbSample lv ⟨h, lv, false⟩ = ⟨shiftIn h lv, lv, false⟩ := by decide
  exact this lv h

/-- Any sample shifts the history; the level goes to the sample's own value exactly if `changed` is set. -/
theorem dbSample_cases (r : Bool) (x : DbLine) :
    (dbSample r x).hist = shiftIn x.hist r ∧
      ((dbSample r x).changed = true ∧ (dbSample r x).level = r ∧ x.level = !r ∨
        (dbSample r x).changed = false ∧ (dbSample r x).level = x.level) := by
  obtain ⟨h, lv, c⟩ := x
  have : ∀ (r lv : Bool) (h : BitVec 8), (dbSample r ⟨h, lv, false⟩).hist = shiftIn h r ∧
      ((dbSample r ⟨h, lv, false⟩).changed = true ∧ (dbSample r ⟨h, lv, false⟩).level = r ∧ lv = !r ∨
        (dbSample r ⟨h, lv, false⟩).changed = false ∧ (dbSample r ⟨h, lv, false⟩).level = lv) := by decide
  exact this r lv h

/-- What a sample does to an instance does not depend on its old flag. -/
theorem dbSample_flag (r : Bool) (x : DbLine) (c : Bool) : dbSample r { x with changed := c } = dbSample r x := rfl

/-! ### pulse_counter -/

/-- The saturating successor as a minimum (rule R12). -/
theorem satSucc_eq (n : Nat) (v : BitVec n) : satSucc n v = BitVec.ofNat n (min (v.toNat + 1) (2 ^ n - 1)) := by
  have hv := v.isLt
  unfold satSucc
  split
  · rename_i h
    apply BitVec.eq_of_toNat_eq
    subst h
    simp
  · rename_i h
    have : v.toNat ≠ 2 ^ n - 1 := fun hh => h (BitVec.eq_of_toNat_eq (by simpa using hh))
    apply BitVec.eq_of_toNat_eq
    simp only [BitVec.toNat_add, BitVec.toNat_ofNat, Nat.min_def]
    have h1 : v.toNat + 1 ≤ 2 ^ n - 1 := by omega
    simp [h1]

/-- The digit of a resolved tally is one decimal digit. -/
theorem pcResolve_digit (p : Params) (x : PulseCounter) :
    if (pcResolve p x).digitValid then (pcResolve p x).digit ≤ 9 else (pcResolve p x).digit = 0 := by
  have key : ∀ (r : Bool) (t : BitVec 4), tallyValid t = true → digitOfTally r t ≤ 9 := by decide
  unfold pcResolve
  split
  · exact key p.reversed x.tally ‹_›
  · rfl

/-- The registers `PC_RESOLVE` leaves alone. -/
theorem pcResolve_frame (p : Params) (x : PulseCounter) :
    pcResolve p x = { x with digit := (pcResolve p x).digit, digitValid := (pcResolve p x).digitValid } := by
  unfold pcResolve
  split <;> rfl

/-- The four outcomes of `PC_STEP`, each with what it leaves in the registers. -/
theorem pcStep_cases (p : Params) (dl pl ch : Bool) (x : PulseCounter) :
    (dl = true ∧ pcStep p dl pl ch x = (pcResolve p (pcStop x), .outEnd)) ∨
    (dl = false ∧ ch = true ∧ pl = p.pulseAssert ∧
      pcStep p dl pl ch x = ({ x with tally := satSucc 4 x.tally, pulseSeen := true, escArmed := false }, .outPulse)) ∨
    (dl = false ∧ ¬(ch = true ∧ pl = p.pulseAssert) ∧ x.escArmed = true ∧ p.holdTicks ≤ x.sfCnt.toNat ∧
      pcStep p dl pl ch x =
        ({ x with esc := x.esc + 1, sfCnt := 0, escArmed := decide (x.esc + 1 ≠ escLevels) }, .outEsc)) ∨
    (dl = false ∧ ¬(ch = true ∧ pl = p.pulseAssert) ∧ ¬(x.escArmed = true ∧ p.holdTicks ≤ x.sfCnt.toNat) ∧
      pcStep p dl pl ch x = (x, .outNone)) := by
  cases dl
  · by_cases hp : ch = true ∧ pl = p.pulseAssert
    · right; left
      exact ⟨rfl, hp.1, hp.2, by simp [pcStep, dialAsserted, dialAssert, pulseAsserted, hp]⟩
    · have hp' : (ch && pulseAsserted p pl) = false := by simpa [pulseAsserted] using hp
      by_cases he : x.escArmed = true ∧ p.holdTicks ≤ x.sfCnt.toNat
      · right; right; left
        refine ⟨rfl, hp, he.1, he.2, ?_⟩
        simp only [pcStep, dialAsserted, dialAssert, hp', he.1, he.2]
        simp
      · right; right; right
        have he' : (x.escArmed && decide (p.holdTicks ≤ x.sfCnt.toNat)) = false := by
          by_cases h1 : x.escArmed = true
          · simp [h1] at he; simp [h1, he]
          · simp [h1]
        exact ⟨rfl, hp, he, by simp [pcStep, dialAsserted, dialAssert, hp', he']⟩
  · left
    exact ⟨rfl, rfl⟩

/-- `PC_STEP` in a state changes the counter's registers and its wire, and nothing else. -/
theorem stepCounter_eq (s : State) : stepCounter s =
    { s with pc := (pcStep s.par s.dbDial.level s.dbPulse.level s.dbPulse.changed s.pc).1
             pcOut := (pcStep s.par s.dbDial.level s.dbPulse.level s.dbPulse.changed s.pc).2 } := rfl

/-! ### dial_command_fsm -/

/-- The effective menu state of each menu value. -/
theorem menuEff_eq (f : DialFsm) : menuEff f = if 5 ≤ f.menu then 0 else f.menu := by
  have : ∀ m : BitVec 3, (if m ≤ 4 then m else mDial) = if 5 ≤ m then 0 else m := by decide
  exact this f.menu

/-- Whether PendingNumber has room, on the register itself. -/
theorem hasRoom_eq (f : DialFsm) : hasRoom f = decide (f.pendLen < 30) := by simp [hasRoom, slotCap, BitVec.lt_def]

/-- The slots of the digit-codes 0 to 11. -/
theorem slotOf_cases (d : Code) (h : d ≤ 11) :
    (d = 1 ∨ d = 2 ∨ d = 10 ∨ d = 11) ∧ slotOf d = none ∨
      ∃ slot : BitVec 3, slotOf d = some slot ∧
        (d = 3 ∧ slot = 0 ∨ 4 ≤ d.toNat ∧ d.toNat ≤ 9 ∧ slot.toNat = d.toNat - 3 ∨ d = 0 ∧ slot = 7) := by
  revert d
  decide

/-- A digit changes PendingNumber, its length, the target and the menu; the slots and the play registers stay. -/
theorem fsmDigit_frame (p : Params) (d : Code) (f : DialFsm) :
    (fsmDigit p d f).1.rd = f.rd ∧ (fsmDigit p d f).1.pb = f.pb ∧ (fsmDigit p d f).1.playIdx = f.playIdx := by
  have a : ∀ f : DialFsm, (digitInDial p d f).1.rd = f.rd ∧ (digitInDial p d f).1.pb = f.pb ∧
      (digitInDial p d f).1.playIdx = f.playIdx := by
    intro f; unfold digitInDial; dsimp only; split <;> exact ⟨rfl, rfl, rfl⟩
  have a' : ∀ (c : Code) (f : DialFsm), (digitInDial p c f).1.rd = f.rd ∧ (digitInDial p c f).1.pb = f.pb ∧
      (digitInDial p c f).1.playIdx = f.playIdx := by
    intro c f; unfold digitInDial; dsimp only; split <;> exact ⟨rfl, rfl, rfl⟩
  unfold fsmDigit
  dsimp only
  split
  · exact a f
  split
  · unfold digitInL1; dsimp only
    split
    · exact a' _ _
    split
    · exact a' _ _
    split
    · exact ⟨rfl, rfl, rfl⟩
    split <;> exact ⟨rfl, rfl, rfl⟩
  split
  · unfold digitInL2; split <;> exact ⟨rfl, rfl, rfl⟩
  split
  · exact ⟨rfl, rfl, rfl⟩
  · unfold digitInProg; split <;> exact ⟨rfl, rfl, rfl⟩

/-- PendingNumber after a digit: as it was, emptied, or with one code appended where there was room. -/
theorem fsmDigit_pend (p : Params) (d : Code) (f : DialFsm) :
    ((fsmDigit p d f).1.pend = f.pend ∧ (fsmDigit p d f).1.pendLen = f.pendLen) ∨
    ((fsmDigit p d f).1.pend = slotOff ∧ (fsmDigit p d f).1.pendLen = 0) ∨
    (f.pendLen.toNat < slotCap ∧ ∃ c, (c = d ∨ c = codeStar ∨ c = codePound) ∧
      (fsmDigit p d f).1.pend = f.pend.setIfInBounds f.pendLen.toNat c ∧
      (fsmDigit p d f).1.pendLen = f.pendLen + 1) := by
  have a : ∀ (c : Code) (f : DialFsm),
      ((digitInDial p c f).1.pend = slotOff ∧ (digitInDial p c f).1.pendLen = 0) ∨
      (f.pendLen.toNat < slotCap ∧ (digitInDial p c f).1.pend = f.pend.setIfInBounds f.pendLen.toNat c ∧
        (digitInDial p c f).1.pendLen = f.pendLen + 1) := by
    intro c f; unfold digitInDial; dsimp only
    by_cases h : hasRoom f
    · right; rw [if_pos h]; exact ⟨of_decide_eq_true h, rfl, rfl⟩
    · left; rw [if_neg h]; exact ⟨rfl, rfl⟩
  unfold fsmDigit
  dsimp only
  split
  · rcases a d f with h | h
    · exact .inr (.inl h)
    · exact .inr (.inr ⟨h.1, d, .inl rfl, h.2⟩)
  split
  · unfold digitInL1; dsimp only
    split
    · rcases a codeStar { f with menu := mDial } with h | h
      · exact .inr (.inl h)
      · exact .inr (.inr ⟨h.1, codeStar, .inr (.inl rfl), h.2⟩)
    split
    · rcases a codePound { f with menu := mDial } with h | h
      · exact .inr (.inl h)
      · exact .inr (.inr ⟨h.1, codePound, .inr (.inr rfl), h.2⟩)
    split
    · exact .inl ⟨rfl, rfl⟩
    split <;> exact .inl ⟨rfl, rfl⟩
  split
  · unfold digitInL2
    split
    · exact .inr (.inl ⟨rfl, rfl⟩)
    · exact .inl ⟨rfl, rfl⟩
  split
  · exact .inl ⟨rfl, rfl⟩
  · unfold digitInProg
    by_cases h : hasRoom f
    · rw [if_pos h]; exact .inr (.inr ⟨of_decide_eq_true h, d, .inl rfl, rfl, rfl⟩)
    · rw [if_neg h]; exact .inr (.inl ⟨rfl, rfl⟩)

/-- The menu after a digit is one of the five states. -/
theorem fsmDigit_menu (p : Params) (d : Code) (f : DialFsm) : (fsmDigit p d f).1.menu ≤ 4 := by
  have a : ∀ (c : Code) (f : DialFsm), (digitInDial p c f).1.menu = 0 := by
    intro c f; unfold digitInDial; dsimp only; rfl
  have z : (0 : BitVec 3) ≤ 4 := by decide
  unfold fsmDigit
  dsimp only
  split
  · rw [a]; exact z
  split
  · unfold digitInL1; dsimp only
    split
    · rw [a]; exact z
    split
    · rw [a]; exact z
    split
    · exact z
    split <;> exact z
  split
  · unfold digitInL2
    split
    · show (4 : BitVec 3) ≤ 4; decide
    · exact z
  split
  · exact z
  · rename_i h1 h2 h3 h4
    unfold digitInProg
    split
    · show f.menu ≤ 4
      revert h1 h2 h3 h4; unfold menuEff mDial mL1 mL2 mL3
      generalize f.menu = m; revert m; decide
    · exact z

/-- A digit in a state: the registers of `dial_command_fsm` and the action wire, and nothing else. -/
theorem digitEvent_eq (d : Code) (s : State) : digitEvent d s =
    { s with fsm := (fsmDigit s.par d s.fsm).1, act := (fsmDigit s.par d s.fsm).2 } := rfl

/-- A slot is read as a list exactly if each of its cells holds the list's code. -/
theorem readSlot_eq_iff (m : Memory) (slot : BitVec 3) (x : Slot) :
    m.readSlot slot = x ↔ ∀ i : Fin slotCap, (m.read (cellAddr slot i)).setWidth 5 = x[i] := by
  constructor
  · intro h i; rw [← h]; simp [Memory.readSlot]
  · intro h; apply Vector.ext; intro i hi
    have := h ⟨i, hi⟩
    simpa [Memory.readSlot] using this

/-- A commit to the redial slot. -/
theorem timeoutEvent_redial (s : State) (h : s.fsm.target = 0) : timeoutEvent s =
    { s with fsm := { s.fsm with menu := 0, pend := slotOff, pendLen := 0, rd := s.fsm.pend }
             act := if s.fsm.menu = 4 then .tone codeBeep s.par.beepMs else .none } := by
  simp only [timeoutEvent, sdAppend, if_pos h]; rfl

/-- A commit to a persisted slot that holds PendingNumber already. -/
theorem timeoutEvent_equal (s : State) (h : s.fsm.target ≠ 0) (he : s.ps.readSlot s.fsm.target = s.fsm.pend) :
    timeoutEvent s =
      { s with fsm := { s.fsm with menu := 0, pend := slotOff, pendLen := 0 }
               act := if s.fsm.menu = 4 then .tone codeBeep s.par.beepMs else .none
               out := s.out ++ [.stRead s.fsm.target] } := by
  simp only [timeoutEvent, sdAppend, if_neg h, if_pos he]; rfl

/-- A commit to a persisted slot that holds something else. -/
theorem timeoutEvent_differ (s : State) (h : s.fsm.target ≠ 0) (he : s.ps.readSlot s.fsm.target ≠ s.fsm.pend) :
    timeoutEvent s =
      { s with fsm := { s.fsm with menu := 0, pend := slotOff, pendLen := 0 }
               act := if s.fsm.menu = 4 then .tone codeBeep s.par.beepMs else .none
               out := s.out ++ [.stRead s.fsm.target] ++ [.stWrite s.fsm.target s.fsm.pend]
               ps := s.ps.writeSlot s.fsm.target s.fsm.pend } := by
  simp only [timeoutEvent, sdAppend, if_neg h, if_neg he]; rfl

/-- The three commits as one: the store commands hold no tone and no watchdog command. -/
theorem timeoutEvent_cases (s : State) : ∃ new ps, timeoutEvent s =
      { s with fsm := { s.fsm with menu := 0, pend := slotOff, pendLen := 0,
                                   rd := if s.fsm.target = 0 then s.fsm.pend else s.fsm.rd }
               act := if s.fsm.menu = 4 then .tone codeBeep s.par.beepMs else .none
               out := s.out ++ new
               ps := ps } ∧
    (∀ c ∈ new, isTone c = false ∧ isWatchdog c = false) ∧ (s.ps.wf → ps.wf) := by
  by_cases ht : s.fsm.target = 0
  · refine ⟨[], s.ps, ?_, by simp, id⟩
    rw [timeoutEvent_redial s ht, if_pos ht, List.append_nil]
  · by_cases hs : s.ps.readSlot s.fsm.target = s.fsm.pend
    · refine ⟨[.stRead s.fsm.target], s.ps, ?_, by simp [isTone, isWatchdog], id⟩
      rw [timeoutEvent_equal s ht hs, if_neg ht]
    · refine ⟨[.stRead s.fsm.target, .stWrite s.fsm.target s.fsm.pend], s.ps.writeSlot s.fsm.target s.fsm.pend, ?_,
        by simp [isTone, isWatchdog], fun h => Memory.writeSlot_wf h ht _⟩
      rw [timeoutEvent_differ s ht hs, if_neg ht, List.append_assoc]; rfl

/-! ### The play-out -/

/-- The scan of `PLAY_ADVANCE` from a cell on, with turns enough for the rest: the first dialable code, or the end. -/
theorem playScan_cases (pb : Slot) : ∀ n i, i ≤ slotCap → slotCap ≤ i + n →
    (∃ h : playScan pb n i < slotCap, i ≤ playScan pb n i ∧ pb[playScan pb n i] ≤ codeMaxValid ∧
      ∀ k (hk : k < slotCap), i ≤ k → k < playScan pb n i → ¬ pb[k] ≤ codeMaxValid) ∨
    (playScan pb n i = slotCap ∧ ∀ k (hk : k < slotCap), i ≤ k → ¬ pb[k] ≤ codeMaxValid) := by
  intro n
  induction n with
  | zero =>
    intro i h1 h2
    have : i = slotCap := by omega
    exact .inr ⟨this, fun k hk h => by omega⟩
  | succ n ih =>
    intro i h1 h2
    by_cases hi : i < slotCap
    · by_cases hp : pb[i] ≤ codeMaxValid
      · have e : playScan pb (n + 1) i = i := by simp [playScan, hi, hp]
        left
        simp only [e]
        exact ⟨hi, le_refl _, hp, fun k _ a b => by omega⟩
      · have e : playScan pb (n + 1) i = playScan pb n (i + 1) := by simp [playScan, hi, hp]
        rw [e]
        rcases ih (i + 1) (by omega) (by omega) with ⟨h, a, b, c⟩ | ⟨a, b⟩
        · refine .inl ⟨h, by omega, b, fun k hk h1 h2 => ?_⟩
          by_cases hki : k = i
          · subst hki; exact hp
          · exact c k hk (by omega) h2
        · refine .inr ⟨a, fun k hk h1 => ?_⟩
          by_cases hki : k = i
          · subst hki; exact hp
          · exact b k hk (by omega)
    · have : i = slotCap := by omega
      subst this
      exact .inr ⟨by simp [playScan], fun k hk h => by omega⟩

/-- The scan stops at the cell that is the first dialable one. -/
theorem playScan_found (pb : Slot) (i j : Nat) (hi : i ≤ slotCap) (hj : j < slotCap) (hij : i ≤ j) (h : pb[j] ≤ codeMaxValid)
    (hk : ∀ k (hk : k < slotCap), i ≤ k → k < j → ¬ pb[k] ≤ codeMaxValid) : playScan pb slotCap i = j := by
  rcases playScan_cases pb slotCap i hi (by omega) with ⟨a, b, c, d⟩ | ⟨a, b⟩
  · rcases Nat.lt_trichotomy (playScan pb slotCap i) j with h' | h' | h'
    · exact absurd c (hk _ a b h')
    · exact h'
    · exact absurd h (d j hj hij h')
  · exact absurd h (b j hj hij)

/-- The scan runs to the end where no cell is dialable. -/
theorem playScan_none (pb : Slot) (i : Nat) (hi : i ≤ slotCap)
    (hk : ∀ k (hk : k < slotCap), i ≤ k → ¬ pb[k] ≤ codeMaxValid) : playScan pb slotCap i = slotCap := by
  rcases playScan_cases pb slotCap i hi (by omega) with ⟨a, b, c, d⟩ | ⟨a, b⟩
  · exact absurd c (hk _ a b)
  · exact a

/-- `LOOP_TOP`: the watchdog armed exactly if PendingNumber is non-empty, then asleep. -/
theorem loopTop_eq (s : State) : loopTop s =
    { s with out := s.out ++ loopTopCommands s.fsm
             sch := { s.sch with phase := .sleep, wdtArmed := if s.fsm.pendLen = 0 then s.sch.wdtArmed else true } } := by
  by_cases h : s.fsm.pendLen = 0
  · simp only [loopTop, if_pos h, loopTopCommands]; rfl
  · simp only [loopTop, if_neg h, loopTopCommands]
    simp [issueSleep, issueArm, State.emit, State.setSch, State.setPhase]

/-- `SD_LOAD`. -/
theorem sdLoad_eq (slot : BitVec 3) (s : State) : sdLoad slot s =
    { s with fsm := { s.fsm with pb := slotContent s slot, playIdx := 0 }
             out := s.out ++ (if slot = 0 then [] else [Command.stRead slot]) } := by
  by_cases h : slot = 0
  · simp only [sdLoad, if_pos h]; simp [State.setFsm]
  · simp only [sdLoad, if_neg h]; rfl

/-- The scan does not pass the end it starts before, and stays where it is past it. -/
theorem playScan_past (pb : Slot) (n i : Nat) (hi : slotCap ≤ i) : playScan pb n i = i := by
  cases n with
  | zero => rfl
  | succ n => simp only [playScan, dif_neg (Nat.not_lt.mpr hi)]

/-- The next code played. -/
theorem playNext_found (s : State) (j : Nat) (hj : j < slotCap) (h : playScan s.fsm.pb slotCap s.fsm.playIdx.toNat = j) :
    playNext s =
      { s with fsm := { s.fsm with playIdx := BitVec.ofNat 5 j }
               out := s.out ++ [.tone s.fsm.pb[j] dialoutToneMs]
               sch := { s.sch with phase := .playTone } } := by
  simp only [playNext, h, if_neg (Nat.ne_of_lt hj), playCell, dif_pos hj]; rfl

/-- Nothing left to play. -/
theorem playNext_none (s : State) (h : playScan s.fsm.pb slotCap s.fsm.playIdx.toNat = slotCap) :
    playNext s = loopTop { s with fsm := { s.fsm with playIdx := 30 } } := by
  simp only [playNext, h, if_pos]; rfl

/-- From an index that names no cell and does not say the end, a code that nothing fixes is played. -/
theorem playNext_absent (s : State) (h : slotCap < s.fsm.playIdx.toNat) :
    playNext s =
      { s with out := s.out ++ [.tone (Config.absentCell s.clock) dialoutToneMs]
               sch := { s.sch with phase := .playTone } } := by
  simp only [playNext, playScan_past _ _ _ (Nat.le_of_lt h), if_neg (Nat.ne_of_gt h), playCell,
    dif_neg (Nat.not_lt.mpr (Nat.le_of_lt h)), BitVec.ofNat_toNat, BitVec.setWidth_eq]
  rfl

/-- From any index, `PLAY_NEXT` plays a code, a dialable cell's where the index is not past the end, or goes to the top of
the loop. -/
theorem playNext_cases (s : State) :
    (∃ (j : Nat) (hj : j < slotCap), s.fsm.pb[j] ≤ codeMaxValid ∧ playNext s =
      { s with fsm := { s.fsm with playIdx := BitVec.ofNat 5 j }
               out := s.out ++ [.tone s.fsm.pb[j] dialoutToneMs]
               sch := { s.sch with phase := .playTone } }) ∨
    playNext s = loopTop { s with fsm := { s.fsm with playIdx := 30 } } ∨
    (slotCap < s.fsm.playIdx.toNat ∧ playNext s =
      { s with out := s.out ++ [.tone (Config.absentCell s.clock) dialoutToneMs]
               sch := { s.sch with phase := .playTone } }) := by
  rcases Nat.lt_or_ge slotCap s.fsm.playIdx.toNat with h | h
  · exact .inr (.inr ⟨h, playNext_absent s h⟩)
  · rcases playScan_cases s.fsm.pb slotCap s.fsm.playIdx.toNat h (Nat.le_add_left _ _) with ⟨a, _, c, _⟩ | ⟨a, _⟩
    · exact .inl ⟨_, a, c, playNext_found s _ a rfl⟩
    · exact .inr (.inl (playNext_none s a))

/-! ### event_scheduler -/

/-- A tone requested and waited for. -/
theorem startTone_eq (code : Code) (ms : BitVec 16) (r : Bool) (s : State) : startTone code ms r s =
    { s with out := s.out ++ [.tone code ms], sch := { s.sch with retGesture := r, phase := .tone } } := rfl

/-- The four ways of `DO_ACT`. -/
theorem doAct_cases (a : Action) (s : State) :
    (a = .none ∧ doAct a s = loopTop s) ∨
    (∃ code ms, a = .tone code ms ∧ doAct a s = startTone code ms false s) ∨
    (∃ slot, a = .dialout slot ∧ ∃ (j : Nat) (hj : j < slotCap), (slotContent s slot)[j] ≤ codeMaxValid ∧
      doAct a s =
        { s with fsm := { s.fsm with pb := slotContent s slot, playIdx := BitVec.ofNat 5 j }
                 out := s.out ++ (if slot = 0 then [] else [Command.stRead slot]) ++
                   [.tone (slotContent s slot)[j] dialoutToneMs]
                 sch := { s.sch with phase := .playTone } }) ∨
    (∃ slot, a = .dialout slot ∧ doAct a s = loopTop
        { s with fsm := { s.fsm with pb := slotContent s slot, playIdx := 30 }
                 out := s.out ++ (if slot = 0 then [] else [Command.stRead slot]) }) := by
  cases a with
  | none => exact .inl ⟨rfl, rfl⟩
  | tone code ms => exact .inr (.inl ⟨code, ms, rfl, rfl⟩)
  | dialout slot =>
    have e : doAct (.dialout slot) s = playNext (sdLoad slot s) := rfl
    rw [e, sdLoad_eq]
    rcases playNext_cases { s with
        fsm := { s.fsm with pb := slotContent s slot, playIdx := 0 }
        out := s.out ++ (if slot = 0 then [] else [Command.stRead slot]) } with ⟨j, hj, h1, h2⟩ | h | ⟨h, -⟩
    · exact .inr (.inr (.inl ⟨slot, rfl, j, hj, h1, h2⟩))
    · exact .inr (.inr (.inr ⟨slot, rfl, h⟩))
    · exact absurd h (Nat.not_lt_zero _)

/-- An action word at the scheduler is `DO_ACT` of its action. -/
theorem exec_toInstr (a : Action) (s : State) : exec a.toInstr s = .next (doAct a s) := by cases a <;> rfl

/-- The five outcomes of a tick in the confirm phase, over the state after the dial line's sample. -/
theorem tickConfirm_cases (d : Bool) (s : State) :
    let t := sampleLine .dial d s
    let u := t.setSch { t.sch with cfCnt := satSucc 16 t.sch.cfCnt }
    (u.dbDial.changed = true ∧ u.dbDial.level = false ∧
      tickConfirm d s = (u.setSch { u.sch with cfCnt := 0 }).setPc (pcAssert u.pc)) ∨
    (u.dbDial.level = true ∧ (u.dbDial.changed = true ∨ u.sch.cfCnt.toNat = 5000) ∧
      tickConfirm d s = loopTop (u.setPc (pcStop u.pc))) ∨
    (u.dbDial.changed = false ∧ u.sch.cfCnt.toNat = 5000 ∧ u.dbDial.level = false ∧
      tickConfirm d s = (u.setPc (pcStart (menuEff u.fsm == mDial) u.pc)).setPhase .gesture) ∨
    (u.dbDial.changed = false ∧ u.sch.cfCnt.toNat ≠ 5000 ∧ tickConfirm d s = u) := by
  intro t u
  have e : tickConfirm d s =
      if u.dbDial.changed && dialAsserted u.dbDial.level then
        (u.setSch { u.sch with cfCnt := 0 }).setPc (pcAssert u.pc)
      else if u.dbDial.changed then abandon u
      else if u.sch.cfCnt.toNat = 5000 then
        if dialAsserted u.dbDial.level then gestureStart u else abandon u
      else u := rfl
  rw [e]
  generalize u = u
  cases hc : u.dbDial.changed <;> cases hl : u.dbDial.level
  · by_cases hn : u.sch.cfCnt.toNat = 5000
    · refine .inr (.inr (.inl ⟨rfl, hn, rfl, ?_⟩))
      simp [dialAsserted, dialAssert, hn, gestureStart]
    · exact .inr (.inr (.inr ⟨rfl, hn, by simp [hn]⟩))
  · by_cases hn : u.sch.cfCnt.toNat = 5000
    · refine .inr (.inl ⟨rfl, .inr hn, ?_⟩)
      simp [dialAsserted, dialAssert, hn, abandon]
    · exact .inr (.inr (.inr ⟨rfl, hn, by simp [hn]⟩))
  · exact .inl ⟨rfl, rfl, by simp [dialAsserted, dialAssert]⟩
  · refine .inr (.inl ⟨rfl, .inl rfl, ?_⟩)
    simp [dialAsserted, dialAssert, abandon]

/-- The outcomes of a tick in the gesture phase, over the state after the two samples and the counter's step. -/
theorem tickGesture_cases (d p : Bool) (s : State) :
    let t := stepCounter (sampleLine .pulse p (sampleLine .dial d s))
    (t.pcOut = .outEnd ∧ t.pc.digitValid = true ∧
      tickGesture d p s = doAct (digitEvent (digitCode t.pc.digit) t).act (digitEvent (digitCode t.pc.digit) t)) ∨
    (t.pcOut = .outEnd ∧ t.pc.digitValid = false ∧ tickGesture d p s = loopTop t) ∨
    (t.pcOut = .outEsc ∧ tickGesture d p s =
      startTone (escTone t.par t.pc.esc).1 (escTone t.par t.pc.esc).2 true (escEvent t.pc.esc t)) ∨
    ((t.pcOut = .outPulse ∨ t.pcOut = .outNone) ∧ tickGesture d p s = t) := by
  intro t
  have e : tickGesture d p s =
      match t.pcOut with
      | .outEnd => gestureEnd t
      | .outEsc => escalate t
      | .outPulse => t
      | .outNone => t := rfl
  rw [e]
  generalize t = t
  cases ho : t.pcOut with
  | outNone => exact .inr (.inr (.inr ⟨.inr rfl, rfl⟩))
  | outPulse => exact .inr (.inr (.inr ⟨.inl rfl, rfl⟩))
  | outEsc => exact .inr (.inr (.inl ⟨rfl, rfl⟩))
  | outEnd =>
    cases hv : t.pc.digitValid
    · exact .inr (.inl ⟨rfl, rfl, by simp [gestureEnd, hv]⟩)
    · exact .inl ⟨rfl, rfl, by simp [gestureEnd, hv]⟩

/-- The state a wake leaves before it takes its path: disarmed, the reason read and cleared. -/
theorem wake_eq (s : State) :
    let u : State := { s with sch := { s.sch with wdtArmed := false, wakeTimeout := false }
                              out := s.out ++ (if s.sch.wdtArmed then [.disarm] else []) }
    wake s = if s.sch.wakeTimeout then timeoutPath u else linePath u := by
  simp only [wake]
  cases hw : s.sch.wdtArmed
  · simp only [Bool.false_eq_true, if_false, State.setSch, List.append_nil]
    rw [← hw]
  · simp [issueDisarm, State.setSch, State.emit]

/-- The line path of a wake. -/
theorem linePath_eq (s : State) : linePath s =
    { s with dbDial := dbInit s.dbDial, dbPulse := dbInit s.dbPulse
             pc := { s.pc with sfRun := false, sfCnt := 0 }
             sch := { s.sch with cfCnt := 0, phase := .confirm } } := rfl

/-- The timeout path of a wake: the commit, then its beep or the top of the loop. -/
theorem timeoutPath_cases (s : State) :
    (s.fsm.menu = 4 ∧ timeoutPath s = startTone codeBeep s.par.beepMs false (timeoutEvent s)) ∨
    (s.fsm.menu ≠ 4 ∧ timeoutPath s = loopTop (timeoutEvent s)) := by
  have e : timeoutPath s = doAct (timeoutEvent s).act (timeoutEvent s) := rfl
  obtain ⟨new, ps, h, -⟩ := timeoutEvent_cases s
  have ha : (timeoutEvent s).act = if s.fsm.menu = 4 then .tone codeBeep s.par.beepMs else .none := by rw [h]
  by_cases hm : s.fsm.menu = 4
  · rw [if_pos hm] at ha
    exact .inl ⟨hm, by rw [e, ha]; rfl⟩
  · rw [if_neg hm] at ha
    exact .inr ⟨hm, by rw [e, ha]; rfl⟩

/-- `RESET` as one record. -/
theorem resetBlock_eq (s : State) : resetBlock s =
    { s with
      dbDial := { hist := BitVec.allOnes histW, level := true, changed := false }
      dbPulse := { hist := histOf (!s.par.pulseAssert), level := !s.par.pulseAssert, changed := false }
      pc := { tally := 0, digit := 0, digitValid := false, pulseSeen := false,
              sfCnt := 0, sfRun := false, esc := 0, escArmed := false }
      fsm := { menu := mDial, pend := slotOff, pendLen := 0, target := 0, rd := slotOff, pb := slotOff, playIdx := 0 }
      sch := { phase := .sleep, retGesture := false, cfCnt := 0, wakeTimeout := false, wdtArmed := false }
      out := s.out ++ [.tsInit] ++ [.sleep] } := rfl

/-! ### The clock period -/

/-- A list of events runs its head and then its tail. -/
theorem execAll_cons (i : Instr) (is : List Instr) (s : State) :
    execAll (i :: is) s = match exec i s with
      | .next t => execAll is t
      | .fault r => .fault r
      | .refused r => .refused r := rfl

/-- A property that every instruction of a list keeps is kept by the list. -/
theorem execAll_invariant {P : State → Prop} (is : List Instr)
    (h : ∀ i ∈ is, ∀ s t, P s → exec i s = .next t → P t) :
    ∀ s t, P s → execAll is s = .next t → P t := by
  induction is with
  | nil =>
    intro s t hs ht
    simp only [execAll, Host.Outcome.next.injEq] at ht
    exact ht ▸ hs
  | cons i is ih =>
    intro s t hs ht
    rw [execAll_cons] at ht
    cases he : exec i s with
    | next u =>
      rw [he] at ht
      exact ih (fun j hj => h j (List.mem_cons_of_mem i hj)) u t (h i List.mem_cons_self s u hs he) ht
    | fault r => rw [he] at ht; cases ht
    | refused r => rw [he] at ht; cases ht

/-- A list completes where each of its instructions completes and keeps what the next needs. -/
theorem execAll_completes {P : State → Prop} (is : List Instr)
    (h : ∀ i ∈ is, ∀ s, P s → ∃ t, exec i s = .next t ∧ P t) :
    ∀ s, P s → ∃ t, execAll is s = .next t ∧ P t := by
  induction is with
  | nil => intro s hs; exact ⟨s, rfl, hs⟩
  | cons i is ih =>
    intro s hs
    obtain ⟨u, hu, hp⟩ := h i List.mem_cons_self s hs
    obtain ⟨t, ht, hq⟩ := ih (fun j hj => h j (List.mem_cons_of_mem i hj)) u hp
    exact ⟨t, by rw [execAll_cons, hu]; exact ht, hq⟩

/-- The events of an input vector are events of the block. -/
theorem eventsOf_isEvent (v : BitVec 7) : ∀ i ∈ eventsOf v, isEvent i = true ∧ i ≠ .reset := by
  unfold eventsOf
  intro i hi
  split at hi
  · simp at hi; subst hi; exact ⟨rfl, by simp⟩
  · simp only [List.mem_append] at hi
    rcases hi with (((hi | hi) | hi) | hi) | hi
    all_goals
      split at hi
      · simp at hi; subst hi; exact ⟨rfl, by simp⟩
      · simp at hi

/-- What a clock period does where the parameters hold and its word decodes. -/
theorem step_of_decode (s : State) (is : List Instr) (hv : s.par.valid = true) (h : decode (fetch s) = .ok is) :
    step s = execAll is (beginClock s) := by
  simp [step, clockPeriod, hv, h]

end Sys2Proof.Machine
end

