-- ==== Sys2Proof/Laws/PerInstr.lean ====
section
/-! SUPPORT. One fact about every instruction: the word the encoder makes of it matches the row of spec/opcode_table.json
it stands for, the row's width, mask and match written out from the table. -/

namespace Sys2Proof.Laws.TableRow

/-- The width of a port word and its bits as one number, bit 0 the least significant (rule R12). -/
def wordBits : PortWord → Nat × Nat
  | .pins true _ => (1, 1)
  | .pins false v => (7, v.toNat)
  | .dbop _ w => (3, w.toNat)
  | .pcop w => (4, w.toNat)
  | .fsmev w => (5, w.toNat)
  | .act w => (26, w.toNat)
  | .cmd w _ => (24, w.toNat)

/-- The width, the mask and the match of an instruction's row of the opcode table. -/
def row : Instr → Nat × Nat × Nat
  | .reset => (1, 0x1, 0x1)
  | .nop _ _ => (7, 0x7C, 0x0)
  | .irqw => (7, 0x40, 0x40)
  | .irql => (7, 0x60, 0x20)
  | .tdone => (7, 0x10, 0x10)
  | .etick => (7, 0x8, 0x8)
  | .tick _ _ => (7, 0x4, 0x4)
  | .dbHold _ _ => (3, 0x6, 0x0)
  | .dbSample _ _ => (3, 0x6, 0x2)
  | .dbInit _ _ => (3, 0x6, 0x4)
  | .dbReserved _ _ => (3, 0x6, 0x6)
  | .pcHold _ => (4, 0xE, 0x0)
  | .pcAssert _ => (4, 0xE, 0x2)
  | .pcStart _ => (4, 0xE, 0x4)
  | .pcEtick _ => (4, 0xE, 0x6)
  | .pcStep _ => (4, 0xE, 0x8)
  | .pcResolve _ => (4, 0xE, 0xA)
  | .pcStop _ => (4, 0xE, 0xC)
  | .pcReserved _ => (4, 0xE, 0xE)
  | .digit0to7 _ => (5, 0x18, 0x0)
  | .digit8to9 _ => (5, 0x1E, 0x8)
  | .star => (5, 0x1F, 0xA)
  | .pound => (5, 0x1F, 0xB)
  | .fsmevReserved12to15 _ => (5, 0x1C, 0xC)
  | .timeout => (5, 0x1F, 0x10)
  | .esc1 => (5, 0x1F, 0x11)
  | .esc2 => (5, 0x1F, 0x12)
  | .esc3 => (5, 0x1F, 0x13)
  | .fsmevReserved20to23 _ => (5, 0x1C, 0x14)
  | .fsmevReserved24to31 _ => (5, 0x18, 0x18)
  | .actNone => (26, 0x3000000, 0x0)
  | .actTone _ _ => (26, 0x3000000, 0x1000000)
  | .actDialout _ => (26, 0x3000000, 0x2000000)
  | .actReserved _ => (26, 0x3000000, 0x3000000)
  | .cmdNone => (24, 0xE00000, 0x0)
  | .tone _ _ => (24, 0xE00000, 0x200000)
  | .tsInit => (24, 0xE00000, 0x400000)
  | .arm _ => (24, 0xE00000, 0x600000)
  | .disarm => (24, 0xE00000, 0x800000)
  | .sleep => (24, 0xE00000, 0xA00000)
  | .stRead _ => (24, 0xE00000, 0xC00000)
  | .stWrite _ _ => (24, 0xE00000, 0xE00000)

/-- The encoding of an instruction matches its row of the opcode table. -/
def Statement (i : Instr) : Prop :=
  (wordBits (encode i)).1 = (row i).1 ∧ (wordBits (encode i)).2 &&& (row i).2.1 = (row i).2.2

/-- The numbers of an `ACT` word match a mask of its kind as its kind does. -/
theorem act_match (w : BitVec 26) (k : BitVec 2) (h : w.extractLsb' 24 2 = k) :
    w.toNat &&& 0x3000000 = k.toNat * 0x1000000 := by
  have e : w &&& 0x3000000#26 = (k.setWidth 26) <<< 24 := by
    subst h
    ext i hi
    rw [BitVec.getElem_and]
    interval_cases i <;> simp
  have hk := k.isLt
  calc w.toNat &&& 0x3000000 = (w &&& 0x3000000#26).toNat := by rw [BitVec.toNat_and]; rfl
    _ = _ := by rw [e]; simp [Nat.shiftLeft_eq]; omega

/-- The numbers of a `CMD` word match the mask of the opcode as its opcode does. -/
theorem cmd_match (w : BitVec 24) (k : BitVec 3) (h : w.extractLsb' 21 3 = k) :
    w.toNat &&& 0xE00000 = k.toNat * 0x200000 := by
  have e : w &&& 0xE00000#24 = (k.setWidth 24) <<< 21 := by
    subst h
    ext i hi
    rw [BitVec.getElem_and]
    interval_cases i <;> simp
  have hk := k.isLt
  calc w.toNat &&& 0xE00000 = (w &&& 0xE00000#24).toNat := by rw [BitVec.toNat_and]; rfl
    _ = _ := by rw [e]; simp [Nat.shiftLeft_eq]; omega

theorem reset : Statement .reset := ⟨rfl, rfl⟩
theorem nop (d p : Bool) : Statement (.nop d p) := by
  cases d <;> cases p <;> exact ⟨rfl, rfl⟩
theorem irqw : Statement .irqw := ⟨rfl, rfl⟩
theorem irql : Statement .irql := ⟨rfl, rfl⟩
theorem tdone : Statement .tdone := ⟨rfl, rfl⟩
theorem etick : Statement .etick := ⟨rfl, rfl⟩
theorem tick (d p : Bool) : Statement (.tick d p) := by
  cases d <;> cases p <;> exact ⟨rfl, rfl⟩
theorem dbHold (l : Line) (b : Bool) : Statement (.dbHold l b) := by
  cases l <;> cases b <;> exact ⟨rfl, rfl⟩
theorem dbSample (l : Line) (r : Bool) : Statement (.dbSample l r) := by
  cases l <;> cases r <;> exact ⟨rfl, rfl⟩
theorem dbInit (l : Line) (b : Bool) : Statement (.dbInit l b) := by
  cases l <;> cases b <;> exact ⟨rfl, rfl⟩
theorem dbReserved (l : Line) (b : Bool) : Statement (.dbReserved l b) := by
  cases l <;> cases b <;> exact ⟨rfl, rfl⟩
theorem pcHold (b : Bool) : Statement (.pcHold b) := by
  cases b <;> exact ⟨rfl, rfl⟩
theorem pcAssert (b : Bool) : Statement (.pcAssert b) := by
  cases b <;> exact ⟨rfl, rfl⟩
theorem pcStart (b : Bool) : Statement (.pcStart b) := by
  cases b <;> exact ⟨rfl, rfl⟩
theorem pcEtick (b : Bool) : Statement (.pcEtick b) := by
  cases b <;> exact ⟨rfl, rfl⟩
theorem pcStep (b : Bool) : Statement (.pcStep b) := by
  cases b <;> exact ⟨rfl, rfl⟩
theorem pcResolve (b : Bool) : Statement (.pcResolve b) := by
  cases b <;> exact ⟨rfl, rfl⟩
theorem pcStop (b : Bool) : Statement (.pcStop b) := by
  cases b <;> exact ⟨rfl, rfl⟩
theorem pcReserved (b : Bool) : Statement (.pcReserved b) := by
  cases b <;> exact ⟨rfl, rfl⟩
theorem digit0to7 (d : BitVec 3) : Statement (.digit0to7 d) := ⟨rfl, by revert d; decide⟩
theorem digit8to9 (d0 : Bool) : Statement (.digit8to9 d0) := by
  cases d0 <;> exact ⟨rfl, rfl⟩
theorem star : Statement .star := ⟨rfl, rfl⟩
theorem pound : Statement .pound := ⟨rfl, rfl⟩
theorem fsmevReserved12to15 (low : BitVec 2) : Statement (.fsmevReserved12to15 low) := ⟨rfl, by revert low; decide⟩
theorem timeout : Statement .timeout := ⟨rfl, rfl⟩
theorem esc1 : Statement .esc1 := ⟨rfl, rfl⟩
theorem esc2 : Statement .esc2 := ⟨rfl, rfl⟩
theorem esc3 : Statement .esc3 := ⟨rfl, rfl⟩
theorem fsmevReserved20to23 (low : BitVec 2) : Statement (.fsmevReserved20to23 low) := ⟨rfl, by revert low; decide⟩
theorem fsmevReserved24to31 (low : BitVec 3) : Statement (.fsmevReserved24to31 low) := ⟨rfl, by revert low; decide⟩
theorem actNone : Statement .actNone := ⟨rfl, rfl⟩
theorem actTone (code : Code) (ms : BitVec 16) : Statement (.actTone code ms) := ⟨rfl, act_match _ 1 (actWord_kind ..)⟩
theorem actDialout (slot : BitVec 3) : Statement (.actDialout slot) := ⟨rfl, act_match _ 2 (actWord_kind ..)⟩
theorem actReserved (rest : BitVec 24) : Statement (.actReserved rest) := ⟨rfl, act_match _ 3 (actRest_kind ..)⟩
theorem cmdNone : Statement .cmdNone := ⟨rfl, rfl⟩
theorem tone (code : Code) (ms : BitVec 16) : Statement (.tone code ms) := ⟨rfl, cmd_match _ 1 (cmdWord_op ..)⟩
theorem tsInit : Statement .tsInit := ⟨rfl, rfl⟩
theorem arm (cls : BitVec 3) : Statement (.arm cls) := ⟨rfl, cmd_match _ 3 (cmdWord3_fields ..).1⟩
theorem disarm : Statement .disarm := ⟨rfl, rfl⟩
theorem sleep : Statement .sleep := ⟨rfl, rfl⟩
theorem stRead (slot : BitVec 3) : Statement (.stRead slot) := ⟨rfl, cmd_match _ 6 (cmdWord3_fields ..).1⟩
theorem stWrite (slot : BitVec 3) (data : Slot) : Statement (.stWrite slot data) := ⟨rfl, cmd_match _ 7 (cmdWord3_fields ..).1⟩

end Sys2Proof.Laws.TableRow
end

