-- ==== Sys2Proof/Tests/Slice0.lean ====
section
/-! SUPPORT. Tests, each a named theorem on fixed values: the well-formedness checks, a word written out from the spec's
encoding for every constructor, single steps with the values spec/ prints, and for every obligation with hypotheses a
state and operands that meet them together. -/

namespace Sys2Proof.Tests

open Sys2Proof Sys2Proof.Machine

/-- The next state of a result, if it is one. -/
def nextOf : Result → Option State
  | .next t => some t
  | .fault _ => none
  | .refused _ => none

/-- A build of the default parameters with four lengths of its own, its block just reset, the command port idle. -/
def base : State :=
  { State.reset with
    par := { reversed := false, pulseAssert := true, etPerMs := 1, dtmfMs := 100, beepMs := 101, beepLowMs := 102,
             tuneMs := 103 }
    out := [] }

/-- `base` in a phase. -/
def at_ (p : Phase) : State := base.setPhase p

/-- `base` with a menu, PendingNumber of one code 8, and a target. -/
def menu_ (m : BitVec 3) (target : BitVec 3) : State :=
  base.setFsm { base.fsm with menu := m, pend := base.fsm.pend.set 0 8, pendLen := 1, target := target }

/-- `base` with a full PendingNumber in a menu. -/
def full_ (m : BitVec 3) : State :=
  base.setFsm { base.fsm with menu := m, pend := Vector.replicate 30 1, pendLen := 30, target := 1 }

/-- A filter instance. -/
def line_ (h : BitVec 8) (l c : Bool) : DbLine := { hist := h, level := l, changed := c }

/-! ### Well-formedness: a term that each check refuses, beside the last one it admits -/

theorem test_wf_actTone : (Instr.actTone 17 0).wellFormed = false ∧ (Instr.actTone 16 0).wellFormed = true := by decide
theorem test_wf_tone : (Instr.tone 17 0).wellFormed = false ∧ (Instr.tone 16 0).wellFormed = true := by decide
theorem test_wf_arm : (Instr.arm 5).wellFormed = false ∧ (Instr.arm 4).wellFormed = true := by decide
theorem test_wf_stRead : (Instr.stRead 0).wellFormed = false ∧ (Instr.stRead 7).wellFormed = true := by decide
theorem test_wf_stWrite : (Instr.stWrite 0 slotOff).wellFormed = false ∧ (Instr.stWrite 1 slotOff).wellFormed = true := by
  decide
theorem test_wf_actReserved : (Instr.actReserved 1).wellFormed = false ∧ (Instr.actReserved 0).wellFormed = true := by
  decide

/-! ### Decoding: words from rules R91 to R106, R110 and 95_test_vectors.md section 2.1 -/

theorem test_decode_pins :
    decode (.pins true 0b1010101) = .ok [.reset] ∧
    decode (.pins false 0b0000000) = .ok [.nop false false] ∧
    decode (.pins false 0b0000010) = .ok [.nop false true] ∧
    decode (.pins false 0b1000000) = .ok [.irqw] ∧
    decode (.pins false 0b0100000) = .ok [.irql] ∧
    decode (.pins false 0b0010000) = .ok [.tdone] ∧
    decode (.pins false 0b0001000) = .ok [.etick] ∧
    decode (.pins false 0b0000101) = .ok [.tick true false] := by
  refine ⟨rfl, rfl, rfl, rfl, rfl, rfl, rfl, rfl⟩

/-- Several strobes, and `0x60`, which "decodes to `IRQW` alone" (rule R110). -/
theorem test_decode_strobes :
    decode (.pins false 0x0C) = .ok [.etick, .tick false false] ∧
    decode (.pins false 0x60) = .ok [.irqw] ∧
    decode (.pins false 0x7F) = .ok [.irqw, .tdone, .etick, .tick true true] := by
  refine ⟨rfl, rfl, rfl⟩

theorem test_decode_dbop :
    decode (.dbop .dial 0b001) = .ok [.dbHold .dial true] ∧
    decode (.dbop .pulse 0b011) = .ok [.dbSample .pulse true] ∧
    decode (.dbop .dial 0b100) = .ok [.dbInit .dial false] ∧
    decode (.dbop .pulse 0b110) = .ok [.dbReserved .pulse false] := by
  refine ⟨rfl, rfl, rfl, rfl⟩

theorem test_decode_pcop :
    decode (.pcop 0b0000) = .ok [.pcHold false] ∧
    decode (.pcop 0b0010) = .ok [.pcAssert false] ∧
    decode (.pcop 0b0101) = .ok [.pcStart true] ∧
    decode (.pcop 0b0110) = .ok [.pcEtick false] ∧
    decode (.pcop 0b1000) = .ok [.pcStep false] ∧
    decode (.pcop 0b1010) = .ok [.pcResolve false] ∧
    decode (.pcop 0b1100) = .ok [.pcStop false] ∧
    decode (.pcop 0b1110) = .ok [.pcReserved false] := by
  refine ⟨rfl, rfl, rfl, rfl, rfl, rfl, rfl, rfl⟩

theorem test_decode_fsmev :
    decode (.fsmev 0b00101) = .ok [.digit0to7 5] ∧
    decode (.fsmev 0b01001) = .ok [.digit8to9 true] ∧
    decode (.fsmev 0b01010) = .ok [.star] ∧
    decode (.fsmev 0b01011) = .ok [.pound] ∧
    decode (.fsmev 0b01110) = .ok [.fsmevReserved12to15 2] ∧
    decode (.fsmev 0b10000) = .ok [.timeout] ∧
    decode (.fsmev 0b10001) = .ok [.esc1] ∧
    decode (.fsmev 0b10010) = .ok [.esc2] ∧
    decode (.fsmev 0b10011) = .ok [.esc3] ∧
    decode (.fsmev 0b10111) = .ok [.fsmevReserved20to23 3] ∧
    decode (.fsmev 0b11111) = .ok [.fsmevReserved24to31 7] := by
  refine ⟨rfl, rfl, rfl, rfl, rfl, rfl, rfl, rfl, rfl, rfl, rfl⟩

/-- `act_kind`, `act_code`, `act_ms`, `act_slot` from the top (rule R106); a bit in an unused field is rejected. -/
theorem test_decode_act :
    decode (.act 0b00_00000_0000000000000000_000) = .ok [.actNone] ∧
    decode (.act 0b01_01101_0000000001100110_000) = .ok [.actTone 13 102] ∧
    decode (.act 0b10_00000_0000000000000000_101) = .ok [.actDialout 5] ∧
    decode (.act 0b11_00000_0000000000000000_001) = .ok [.actReserved 1] ∧
    decode (.act 0b01_01101_0000000001100110_001) = .error .strayActBits := by
  refine ⟨rfl, rfl, rfl, rfl, rfl⟩

/-- Opcode in the top three bits (rules R94, R95); `ARM(CLASS_4S)` = `0x600003`; a bit not named is rejected. -/
theorem test_decode_cmd :
    decode (.cmd 0b000_00000_0000000000000000 0) = .ok [.cmdNone] ∧
    decode (.cmd 0b001_01010_0000000011001000 0) = .ok [.tone 10 200] ∧
    decode (.cmd 0b010_00000_0000000000000000 0) = .ok [.tsInit] ∧
    decode (.cmd 0b011_00000_0000000000000011 0) = .ok [.arm 3] ∧
    decode (.cmd 0b100_00000_0000000000000000 0) = .ok [.disarm] ∧
    decode (.cmd 0b101_00000_0000000000000000 0) = .ok [.sleep] ∧
    decode (.cmd 0b110_00000_0000000000000001 0) = .ok [.stRead 1] ∧
    decode (.cmd 0b011_00000_0000000000001011 0) = .error .strayCmdBits := by
  refine ⟨rfl, rfl, rfl, rfl, rfl, rfl, rfl, rfl⟩

/-- Cell `i` of `WD` stands in bits `5i+4` down to `5i` (rule R97): cell 0 is 7, cell 1 is 3. -/
theorem test_decode_stWrite :
    decode (.cmd 0b111_00000_0000000000000001 0b00011_00111) = .ok [.stWrite 1 (((Vector.replicate 30 0).set 0 7).set 1 3)] := by
  decide

/-! ### The host's reading of a table word, and placing it -/

theorem test_tableWord : decodeTableWord 8 0x40 = some .irqw ∧ decodeTableWord 24 0x200000 = some (.tone 0 0) ∧
    decodeTableWord 32 0x2000005 = some (.actDialout 5) ∧ decodeTableWord 8 0x13 = some .esc3 := by decide

theorem test_placed_word_runs :
    (nextOf (step ((base.setPhase .tone).withFetchWord 8 0x10))).map (fun t => (t.sch.phase, t.out, t.clock)) =
      some (.sleep, [.sleep], 1) := by decide

/-! ### Single steps, with the values of the rules' own examples -/

/-- Rule R320's example. -/
theorem test_reset :
    (nextOf (exec .reset { menu_ 0 0 with
      dbDial := line_ 0x00 false false, pc := { base.pc with tally := 2 }, sch := { base.sch with phase := .gesture } })).map
      (fun t => (t.out, t.sch.phase, t.fsm.pendLen, t.pc.tally, t.dbDial)) =
    some ([.tsInit, .sleep], .sleep, 0, 0, line_ 0xFF true false) := by decide

/-- Rule R232's example. -/
theorem test_irqw :
    (nextOf (exec .irqw { menu_ 0 0 with sch := { base.sch with wdtArmed := true } })).map
      (fun t => (t.out, t.fsm.rd, t.fsm.pendLen, t.sch)) =
    some ([.disarm, .sleep], slotOff.set 0 8, 0, base.sch) := by decide

/-- Rule R233's example. -/
theorem test_irql :
    (nextOf (exec .irql base)).map (fun t => (t.out, t.sch.phase, t.dbDial, t.sch.cfCnt)) =
    some ([], .confirm, line_ 0xFF true false, 0) := by decide

/-- Rule R244's example, and the silence of a dial-out. -/
theorem test_tdone :
    (nextOf (exec .tdone ((menu_ 0 0).setPhase .tone))).map (fun t => (t.out, t.sch.phase, t.sch.wdtArmed)) =
      some ([.arm 3, .sleep], .sleep, true) ∧
    (nextOf (exec .tdone (at_ .playTone))).map (fun t => (t.out, t.sch.phase)) = some ([.tone 16 200], .playGap) := by
  decide

/-- Rule R153's examples and its corner case. -/
theorem test_etick :
    (nextOf (exec .etick { base with pc := { base.pc with sfCnt := 1999, sfRun := true } })).map (·.pc.sfCnt) = some 2000 ∧
    (nextOf (exec .etick { base with pc := { base.pc with sfCnt := 1999 } })).map (·.pc.sfCnt) = some 1999 ∧
    (nextOf (exec .etick { base with pc := { base.pc with sfCnt := 65535, sfRun := true } })).map (·.pc.sfCnt) =
      some 65535 := by decide

/-- Rule R237's example: the third sample asserts the line and restarts the window. -/
theorem test_tick_confirm :
    (nextOf (exec (.tick false false) { at_ .confirm with dbDial := line_ 0xFC true false })).map
      (fun t => (t.dbDial, t.sch.cfCnt, t.pc.sfRun, t.sch.phase)) =
    some (line_ 0xF8 false true, 0, true, .confirm) := by decide

/-- Rule R240's example. -/
theorem test_tick_gesture :
    (nextOf (exec (.tick false true) { at_ .gesture with
      dbDial := line_ 0x00 false false, dbPulse := line_ 0x03 false false, pc := { base.pc with tally := 1 } })).map
      (fun t => (t.dbPulse, t.pc.tally, t.out)) =
    some (line_ 0x07 true true, 2, []) := by decide

/-- Rule R132's five examples. -/
theorem test_dbSample :
    dbSample false (line_ 0xFC true false) = line_ 0xF8 false true ∧
    dbSample false (line_ 0xFD true false) = line_ 0xFA true false ∧
    dbSample true (line_ 0x03 false false) = line_ 0x07 true true ∧
    dbSample true (line_ 0x83 false false) = line_ 0x07 true true ∧
    dbSample true (line_ 0x43 false false) = line_ 0x87 false false := by decide

/-- Rule R131's examples, at the pulse line's instance. -/
theorem test_dbInit :
    (nextOf (exec (.dbInit .pulse false) { base with dbPulse := line_ 0x07 true true })).map (·.dbPulse) =
      some (line_ 0xFF true false) ∧
    (nextOf (exec (.dbInit .pulse true) { base with dbPulse := line_ 0xF0 false false })).map (·.dbPulse) =
      some (line_ 0x00 false false) := by decide

/-- Rule R133's example. -/
theorem test_dbHold :
    (nextOf (exec (.dbHold .dial true) { base with dbDial := line_ 0xF8 false true })).map (·.dbDial) =
      some (line_ 0xF8 false true) := by decide

/-- All runs of `n` samples. -/
def runs : Nat → List (List Bool)
  | 0 => [[]]
  | n + 1 => (runs n).map (false :: ·) ++ (runs n).map (true :: ·)

/-- Whether the line is still high after the samples and a steady 0, from eight high samples. -/
def locksOut (p : List Bool) : Bool :=
  ((p ++ List.replicate 9 false).foldl (fun x r => dbSample r x) (line_ 0xFF true false)).level

/-- Rule R137: "Of the 126 bounce prefixes of one to six samples that are followed by a steady 0, fourteen lock out (the
shortest is 0, 1, 0, 1)". -/
theorem test_lockout_prefixes :
    [1, 2, 3, 4, 5, 6].map (fun n => ((runs n).filter locksOut).length) = [0, 0, 0, 1, 4, 9] ∧
      (runs 4).filter locksOut = [[false, true, false, true]] := by decide +kernel

/-- Rules R151, R152, R160: their examples. -/
theorem test_counter_port :
    (nextOf (exec (.pcAssert false) { base with pc := { base.pc with sfCnt := 4560 } })).map (fun t => (t.pc.sfCnt, t.pc.sfRun)) =
      some (0, true) ∧
    (nextOf (exec (.pcStart true) { base with pc := { base.pc with tally := 5, digit := 5, digitValid := true, pulseSeen := true } })).map
      (·.pc) = some { base.pc with escArmed := true } ∧
    (nextOf (exec (.pcStop false) { base with pc := { base.pc with sfCnt := 1203, sfRun := true, escArmed := true } })).map (·.pc) =
      some { base.pc with sfCnt := 1203 } := by decide

/-- Rule R154's four examples. -/
theorem test_pcStep :
    pcStep base.par false true true { base.pc with tally := 4, escArmed := true } =
      ({ base.pc with tally := 5, pulseSeen := true }, .outPulse) ∧
    (pcStep base.par false false true base.pc).2 = .outNone ∧
    pcStep base.par false false false { base.pc with escArmed := true, sfCnt := 2000 } =
      ({ base.pc with escArmed := true, esc := 1 }, .outEsc) ∧
    (pcStep base.par true true true base.pc).2 = .outEnd := by decide

/-- Rule R157's examples, standard and reversed. -/
theorem test_pcResolve :
    (([7, 10, 0, 11] : List (BitVec 4)).map fun t =>
      ((pcResolve base.par { base.pc with tally := t }).digitValid, (pcResolve base.par { base.pc with tally := t }).digit)) =
      [(true, 7), (true, 0), (false, 0), (false, 0)] ∧
    (([7, 10] : List (BitVec 4)).map fun t => (pcResolve { base.par with reversed := true } { base.pc with tally := t }).digit) =
      [3, 0] := by decide

/-- Rule R186's examples: room, no room, and a menu value that names no state. -/
theorem test_digit_dial :
    (nextOf (exec (.digit0to7 5) (menu_ 0 4))).map (fun t => (t.fsm, t.act)) =
      some ({ base.fsm with pend := (base.fsm.pend.set 0 8).set 1 5, pendLen := 2 }, .tone 5 100) ∧
    (nextOf (exec (.digit0to7 7) (full_ 0))).map (fun t => (t.fsm, t.act)) = some (base.fsm, .tone 7 100) ∧
    (nextOf (exec (.digit0to7 4) (menu_ 6 4))).map (fun t => (t.fsm.menu, t.fsm.pendLen)) = some (0, 2) := by decide

/-- Rules R187, R189: SpecialL1, `DIGIT 1` and `DIGIT 9`. -/
theorem test_digit_special1 :
    (nextOf (exec (.digit0to7 1) (menu_ 1 5))).map (fun t => (t.fsm, t.act)) =
      some ({ base.fsm with pend := (base.fsm.pend.set 0 8).set 1 10, pendLen := 2 }, .tone 10 100) ∧
    (nextOf (exec (.digit8to9 true) (menu_ 1 5))).map (fun t => (t.fsm, t.act)) =
      some ((menu_ 0 5).fsm, .dialout 6) := by decide

/-- Rule R190's example, and `POUND` in SpecialL2 (rule R192). -/
theorem test_star_pound :
    (nextOf (exec .star (menu_ 1 5))).map (fun t => (t.fsm, t.act)) = some ((menu_ 0 5).fsm, .none) ∧
    (nextOf (exec .pound (menu_ 2 5))).map (fun t => (t.fsm, t.act)) = some ((menu_ 0 5).fsm, .tone 15 103) := by decide

/-- Rule R191's example, and rule R195's. -/
theorem test_digit_program :
    (nextOf (exec (.digit0to7 4) (menu_ 2 5))).map (fun t => (t.fsm, t.act)) =
      some ({ base.fsm with menu := 4, target := 1 }, .none) ∧
    (nextOf (exec (.digit8to9 true) (full_ 4))).map (fun t => (t.fsm, t.act)) =
      some ({ base.fsm with target := 1 }, .tone 15 103) := by decide

/-- Rule R197's third and fourth examples: a commit that writes, and the same again, which only reads. -/
theorem test_timeout :
    (nextOf (exec .timeout (menu_ 4 1))).map (fun t => (t.out, t.act, t.ps)) =
      some ([.stRead 1, .stWrite 1 (slotOff.set 0 8)], .tone 12 101, [(30, 8)]) ∧
    (nextOf (exec .timeout { menu_ 4 1 with ps := [(30, 8)] })).map (fun t => (t.out, t.ps)) =
      some ([.stRead 1], [(30, 8)]) := by decide

/-- Rule R196's example and its third row. -/
theorem test_escalation :
    (nextOf (exec .esc1 (menu_ 0 0))).map (fun t => (t.fsm, t.act)) = some ((menu_ 1 0).fsm, .tone 13 102) ∧
    (nextOf (exec .esc2 (menu_ 1 0))).map (fun t => (t.fsm.menu, t.act)) = some (2, .tone 14 103) ∧
    (nextOf (exec .esc3 (menu_ 2 0))).map (fun t => (t.fsm.menu, t.act)) = some (3, .tone 15 103) := by decide

/-- Rules R199, R200, R242: a dial-out of slot 1, whose second cell is its first dialable code. -/
theorem test_actDialout :
    (nextOf (exec (.actDialout 1) { base with ps := [(30, 20), (31, 9)] })).map
      (fun t => (t.out, t.fsm.playIdx, t.sch.phase)) =
    some ([.stRead 1, .tone 9 200], 1, .playTone) := by decide

/-- The newest samples that the masks of rules R7 and R8 ask to agree are `DEB_RUN` many; the bus of rule R97 is 150 wide. -/
theorem test_masks_name_debRun :
    debRise = 2 ^ debRun - 1 ∧ debRise &&& debMask = debRise ∧ debFall = debMask ^^^ debRise ∧ busW = 150 := by decide

/-- Rule R40: the block's record of the watchdog; rule R63: the store's cells. -/
theorem test_commands :
    (nextOf (exec (.arm 3) base)).map (·.sch.wdtArmed) = some true ∧
    (nextOf (exec .disarm { base with sch := { base.sch with wdtArmed := true } })).map (·.sch.wdtArmed) = some false ∧
    (nextOf (exec (.stWrite 7 (slotOff.set 29 3)) { base with ps := [(30, 8), (210, 5)] })).map (·.ps) =
      some [(30, 8), (239, 3)] := by decide

/-! ### Witnesses: for each obligation with hypotheses, values that meet them, clause by clause -/

theorem witness_EncodeOfDecode :
    decodeAct 0x2000007 = .ok (.actDialout 7) ∧ decodeCmd 0x400000 5 = .ok .tsInit ∧
    decodeCmd 0xE00007 0 = .ok (.stWrite 7 (Vector.replicate 30 0)) := by
  refine ⟨rfl, rfl, ?_⟩
  decide

theorem witness_StepRunsDecoded :
    let s := place (.pins false 0x40) (place (.pins false 0x0C) base)
    s.par.valid = true ∧ s.input = .pins false 0x40 :: [.pins false 0x0C] ∧ decode (.pins false 0x40) = .ok [.irqw] := by
  refine ⟨by decide, rfl, rfl⟩

theorem witness_ResetPinIgnoresVector : base.par.valid = true := by decide

theorem witness_BadParametersRefused :
    (({ base.par with etPerMs := 0 } : Params).etPerMs = 0 ∧ 65534 < 2000 * ({ base.par with etPerMs := 33 } : Params).etPerMs) ∧
    (1 ≤ base.par.etPerMs ∧ 2000 * base.par.etPerMs ≤ 65534) ∧
    2000 * ({ base.par with etPerMs := 32 } : Params).etPerMs ≤ 65534 := by decide

theorem witness_MachineResetIsReset :
    let s : State := { State.reset with out := [], fsm := (menu_ 3 2).fsm }
    s.par = Config.build ∧ s.ps = [] ∧ s.out = [] ∧ s.pcOut = .outNone ∧ s.act = .none ∧ s.input = [] ∧ s.clock = 0 := by
  refine ⟨rfl, rfl, rfl, rfl, rfl, rfl, rfl⟩

theorem witness_FlipNeedsThreeSamples :
    let s : State := { base with dbDial := line_ 0xFC true false }
    ∃ t, exec (.dbSample .dial false) s = .next t ∧ (t.db .dial).level ≠ (s.db .dial).level :=
  ⟨_, rfl, by decide⟩

theorem witness_CleanStepAtThirdSample :
    (base.db .dial).hist = (if (base.db .dial).level then 0xFF else 0x00) ∧
    (base.db .pulse).hist = (if (base.db .pulse).level then 0xFF else 0x00) := by decide

theorem witness_LockedOutLineNeverFalls : (base.db .dial).hist = 0xFF ∧ (base.db .dial).level = true := by decide

theorem witness_WaveEdgesAtThirdSample :
    (∀ n ∈ [5, 6, 5], 5 ≤ n) ∧ (base.db .pulse).hist = (if (base.db .pulse).level then 0xFF else 0x00) := by decide

/-- The four branches; the third at the threshold, the fourth one tick below it. -/
theorem witness_StepTakesFirstBranch :
    let s : State := { base with dbDial := line_ 0x00 false false }
    let u (n : BitVec 16) : State := { s with pc := { s.pc with escArmed := true, sfCnt := n } }
    base.dbDial.level = true ∧
    (let v : State := { s with dbPulse := line_ 0x07 true true }
     v.dbDial.level = false ∧ v.dbPulse.changed = true ∧ v.dbPulse.level = v.par.pulseAssert) ∧
    ((u 2000).dbDial.level = false ∧ ¬((u 2000).dbPulse.changed = true ∧ (u 2000).dbPulse.level = (u 2000).par.pulseAssert) ∧
      (u 2000).pc.escArmed = true ∧ 2000 * (u 2000).par.etPerMs ≤ (u 2000).pc.sfCnt.toNat) ∧
    ((u 1999).dbDial.level = false ∧ ¬((u 1999).dbPulse.changed = true ∧ (u 1999).dbPulse.level = (u 1999).par.pulseAssert) ∧
      ¬((u 1999).pc.escArmed = true ∧ 2000 * (u 1999).par.etPerMs ≤ (u 1999).pc.sfCnt.toNat)) := by decide

/-- In the gesture phase and in an escalation's tone, escalation disarmed with the hold time over; then a pulse edge at the
port, and in a sample tick. -/
theorem witness_NoEscalationAfterPulse :
    let s : State := { at_ .gesture with dbDial := line_ 0x00 false false, pc := { base.pc with tally := 1, sfCnt := 2000 } }
    let u : State := { s with sch := { s.sch with phase := .tone, retGesture := true } }
    let v : State := { s with dbPulse := line_ 0x07 true true, pc := { s.pc with escArmed := true } }
    let w : State := { v with dbPulse := line_ 0x03 false false }
    (inGesture s.sch = true ∧ s.pc.escArmed = false ∧ isEvent (.tick false false) = true ∧
      (nextOf (exec (.tick false false) s)).isSome = true) ∧
    (inGesture u.sch = true ∧ u.pc.escArmed = false ∧ isEvent .tdone = true ∧ (nextOf (exec .tdone u)).isSome = true) ∧
    (nextOf (exec (.pcStep false) v)).map (·.pcOut) = some .outPulse ∧
    w.sch.phase = .gesture ∧ (nextOf (exec (.tick false true) w)).map (·.pcOut) = some .outPulse := by decide

theorem witness_DigitInDial :
    digitCodeOf (.digit0to7 0) = some 0 ∧ digitCodeOf (.digit8to9 true) = some 9 ∧ digitCodeOf .star = some 10 ∧
    digitCodeOf .pound = some 11 ∧ ((menu_ 0 1).fsm.menu = 0 ∨ 5 ≤ (menu_ 0 1).fsm.menu) ∧
    ((full_ 5).fsm.menu = 0 ∨ 5 ≤ (full_ 5).fsm.menu) := by decide

/-- Each clause's digit, at both ends of its range, with an instruction that gives it. -/
theorem witness_DigitInSpecialOne :
    (menu_ 1 5).fsm.menu = 1 ∧ digitCodeOf (.digit0to7 1) = some 1 ∧ digitCodeOf (.digit0to7 2) = some 2 ∧
    digitCodeOf (.digit0to7 3) = some 3 ∧
    (digitCodeOf (.digit0to7 4) = some 4 ∧ 4 ≤ (4 : Code).toNat ∧ (4 : Code).toNat ≤ 9) ∧
    (digitCodeOf (.digit8to9 true) = some 9 ∧ 4 ≤ (9 : Code).toNat ∧ (9 : Code).toNat ≤ 9) ∧
    digitCodeOf (.digit0to7 0) = some 0 ∧ digitCodeOf .star = some 10 ∧ digitCodeOf .pound = some 11 := by decide

theorem witness_DigitInSpecialTwo :
    (menu_ 2 5).fsm.menu = 2 ∧ digitCodeOf (.digit0to7 3) = some 3 ∧
    (digitCodeOf (.digit0to7 4) = some 4 ∧ (1 : BitVec 3).toNat = (4 : Code).toNat - 3) ∧
    (digitCodeOf (.digit8to9 true) = some 9 ∧ (6 : BitVec 3).toNat = (9 : Code).toNat - 3) ∧
    digitCodeOf (.digit0to7 0) = some 0 ∧ digitCodeOf (.digit0to7 1) = some 1 ∧ digitCodeOf .pound = some 11 := by decide

theorem witness_DigitInSpecialThree : (menu_ 3 5).fsm.menu = 3 ∧ digitCodeOf (.digit8to9 false) = some 8 := by decide

theorem witness_DigitInProgram :
    (menu_ 4 5).fsm.menu = 4 ∧ (full_ 4).fsm.menu = 4 ∧ ¬(full_ 4).fsm.pendLen < 30 ∧ digitCodeOf .star = some 10 := by
  decide

/-- The three commits: slot 0, a slot that holds PendingNumber, a slot that does not; and the store's two last bytes. -/
theorem witness_TimeoutCommitsPendingNumber :
    (menu_ 4 0).ps.wf ∧ (menu_ 4 0).fsm.target = 0 ∧
    (let s : State := { menu_ 4 7 with ps := [(210, 8), (239, 0)] }
     s.ps.wf ∧ s.fsm.target ≠ 0 ∧ ¬(∀ i : Fin 30, (s.ps.read (cellAddr s.fsm.target i)).setWidth 5 = s.fsm.pend[i])) ∧
    (let s : State := { menu_ 4 1 with ps := [(30, 8)] }
     s.ps.wf ∧ s.fsm.target ≠ 0 ∧ ∀ i : Fin 30, (s.ps.read (cellAddr s.fsm.target i)).setWidth 5 = s.fsm.pend[i]) ∧
    (∀ i : Fin 30, 0 ≠ cellAddr 1 i) ∧ (∀ i : Fin 30, 60 ≠ cellAddr 1 i) := by decide

theorem witness_SecondCommitWritesNothing :
    (menu_ 4 1).ps.wf ∧ (menu_ 4 1).fsm.target ≠ 0 ∧ ∃ t, exec .timeout (menu_ 4 1) = .next t :=
  ⟨by decide, by decide, _, rfl⟩

theorem witness_CommandsReachThePort : (1 : BitVec 3) ≠ 0 ∧ (7 : BitVec 3) ≠ 0 ∧ (4 : BitVec 3).toNat ≤ 4 := by decide

theorem witness_StoreWriteReplacesSlot :
    (1 : BitVec 3) ≠ 0 ∧ (7 : BitVec 3) ≠ 0 ∧ ({ base with ps := [(30, 8), (239, 31)] } : State).ps.wf ∧
    (∀ i : Fin 30, 209 ≠ cellAddr 7 i) ∧ (∀ i : Fin 30, 240 ≠ cellAddr 7 i) := by decide

theorem witness_ReservedWordsIgnored : 5 ≤ (5 : BitVec 3).toNat ∧ 5 ≤ (7 : BitVec 3).toNat := by decide

theorem witness_NoActionSleeps : (menu_ 0 0).fsm.pendLen ≠ 0 ∧ base.fsm.pendLen = 0 := by decide

/-- A dialable code in the first cell, in the last cell alone, and none. -/
theorem witness_DialoutPlaysFirstCode :
    (let x := slotOff.set 0 5
     x[(0 : Fin 30)] ≤ 11 ∧ ∀ k : Fin 30, k < 0 → ¬ x[k] ≤ 11) ∧
    (let x := slotOff.set 29 11
     x[(29 : Fin 30)] ≤ 11 ∧ ∀ k : Fin 30, k < 29 → ¬ x[k] ≤ 11) ∧
    (∀ j : Fin 30, ¬ base.fsm.rd[j] ≤ 11) ∧
    ({ base with ps := [(30, 5)] } : State).ps.readSlot 1 = slotOff.set 0 5 := by decide

theorem witness_ToneDoneByPhase :
    (let s : State := { base with sch := { base.sch with phase := .tone, retGesture := true } }
     s.sch.phase = .tone ∧ s.sch.retGesture = true) ∧
    ((at_ .tone).sch.phase = .tone ∧ (at_ .tone).sch.retGesture = false) ∧ (at_ .playTone).sch.phase = .playTone ∧
    base.sch.phase = .sleep ∧ (at_ .confirm).sch.phase = .confirm ∧ (at_ .gesture).sch.phase = .gesture := by decide

/-- A next code right after the one played, one in the last cell, and none left, at the last cell too. -/
theorem witness_GapDonePlaysNextCode :
    let s (x : Slot) (n : BitVec 5) : State := (at_ .playGap).setFsm { base.fsm with pb := x, playIdx := n }
    (let u := s ((slotOff.set 0 5).set 1 2) 0
     u.sch.phase = .playGap ∧ u.fsm.playIdx.toNat < 30 ∧ u.fsm.playIdx.toNat < (1 : Fin 30).val ∧ u.fsm.pb[(1 : Fin 30)] ≤ 11 ∧
      ∀ k : Fin 30, u.fsm.playIdx.toNat < k.val → k < 1 → ¬ u.fsm.pb[k] ≤ 11) ∧
    (let u := s ((slotOff.set 3 5).set 29 2) 3
     u.fsm.playIdx.toNat < (29 : Fin 30).val ∧ u.fsm.pb[(29 : Fin 30)] ≤ 11 ∧
      ∀ k : Fin 30, u.fsm.playIdx.toNat < k.val → k < 29 → ¬ u.fsm.pb[k] ≤ 11) ∧
    (let u := s (slotOff.set 29 5) 29
     u.fsm.playIdx.toNat < 30 ∧ ∀ j : Fin 30, u.fsm.playIdx.toNat < j.val → ¬ u.fsm.pb[j] ≤ 11) := by decide

theorem witness_PlayIndexNamesNoCell :
    let s (x : Slot) (n : BitVec 5) : State := (at_ .playGap).setFsm { base.fsm with pb := x, playIdx := n }
    (s slotOff 30).sch.phase = .playGap ∧ (s slotOff 30).fsm.playIdx = 30 ∧
    (let u := s (slotOff.set 0 5) 31
     u.fsm.playIdx = 31 ∧ u.fsm.pb[(0 : Fin 30)] ≤ 11 ∧ ∀ k : Fin 30, k < 0 → ¬ u.fsm.pb[k] ≤ 11) ∧
    ((s slotOff 31).fsm.playIdx = 31 ∧ ∀ j : Fin 30, ¬ (s slotOff 31).fsm.pb[j] ≤ 11) := by decide

theorem witness_LineWakeStartsConfirm : base.sch.phase = .sleep ∧ base.sch.wakeTimeout = false := by decide

theorem witness_WatchdogWakeCommits : (menu_ 4 1).sch.phase = .sleep := by decide

theorem witness_InterruptsWhileAwake :
    ∀ p ∈ [Phase.confirm, .gesture, .tone, .playTone, .playGap], (at_ p).sch.phase ≠ .sleep := by decide

theorem witness_LatchedReasonMisroutes :
    let s : State := { base with sch := { base.sch with wakeTimeout := true } }
    s.sch.phase = .sleep ∧ s.sch.wakeTimeout = true := by decide

theorem witness_TickIgnored :
    ∀ p ∈ [Phase.sleep, .tone, .playTone, .playGap], (at_ p).sch.phase ≠ .confirm ∧ (at_ p).sch.phase ≠ .gesture := by
  decide

/-- The five clauses: an assertion, a bounce back, the window's end with the line asserted and idle, and before its end. -/
theorem witness_TickInConfirm :
    let s (x : DbLine) (n : BitVec 16) : State :=
      { base with dbDial := x, sch := { base.sch with phase := .confirm, cfCnt := n } }
    let u (x : DbLine) (r : Bool) := dbSample r x
    (s (line_ 0xFC true false) 0).sch.phase = .confirm ∧
    ((u (line_ 0xFC true false) false).changed = true ∧ (u (line_ 0xFC true false) false).level = false) ∧
    ((u (line_ 0x03 false false) true).changed = true ∧ (u (line_ 0x03 false false) true).level = true) ∧
    ((u (line_ 0x00 false false) false).changed = false ∧ min ((s (line_ 0x00 false false) 4999).sch.cfCnt.toNat + 1) 65535 = 5000 ∧
      (u (line_ 0x00 false false) false).level = false) ∧
    ((u (line_ 0xFF true false) true).changed = false ∧ (u (line_ 0xFF true false) true).level = true) ∧
    min ((s (line_ 0xFF true false) 4998).sch.cfCnt.toNat + 1) 65535 ≠ 5000 ∧
    min ((s (line_ 0xFF true false) 65535).sch.cfCnt.toNat + 1) 65535 ≠ 5000 := by decide

/-- The four outcomes of the counter: nothing, a pulse, a threshold, the end with and without a digit. -/
theorem witness_TickInGesture :
    let s (d p : DbLine) (x : PulseCounter) : State := { at_ .gesture with dbDial := d, dbPulse := p, pc := x }
    let o (r q : Bool) (v : State) :=
      (nextOf (execAll [.dbSample .dial r, .dbSample .pulse q, .pcStep false] v)).map fun u => (u.pcOut, u.pc.digitValid)
    o false false (s (line_ 0x00 false false) (line_ 0x00 false false) base.pc) = some (.outNone, false) ∧
    o false true (s (line_ 0x00 false false) (line_ 0x03 false false) base.pc) = some (.outPulse, false) ∧
    o false false (s (line_ 0x00 false false) (line_ 0x00 false false) { base.pc with escArmed := true, sfCnt := 2000 }) =
      some (.outEsc, false) ∧
    o true false (s (line_ 0x03 false false) (line_ 0x00 false false) base.pc) = some (.outEnd, false) ∧
    o true false (s (line_ 0x03 false false) (line_ 0x00 false false) { base.pc with tally := 10 }) = some (.outEnd, true) := by
  decide

theorem witness_StepKeepsLegal :
    Legal (place (.pins false 0x25) base) ∧ ∃ t, step (place (.pins false 0x25) base) = .next t :=
  ⟨by decide, _, rfl⟩

theorem witness_LegalNeverStops : Legal base ∧ Legal (place (.pins false 0x7F) (place (.pins true 0) base)) :=
  ⟨by decide, by decide⟩

/-- Registers that no run leaves: a menu that names no state, a play index that names no cell. -/
theorem witness_ResetRecovers :
    let s : State := { at_ .playGap with fsm := { base.fsm with menu := 7, pendLen := 31, playIdx := 31 } }
    s.ps.wf ∧ s.par.valid = true ∧ pinsOnly s ∧ ∃ t, exec .reset s = .next t :=
  ⟨by decide, by decide, by decide, _, rfl⟩

theorem witness_StoreFormKept : (menu_ 4 1).ps.wf ∧ ∃ t, exec .timeout (menu_ 4 1) = .next t := ⟨by decide, _, rfl⟩

theorem witness_BuildAndStoreFrame :
    (∃ t, exec .star base = .next t) ∧ Instr.star ≠ .irqw ∧ Instr.star ≠ .irql ∧ Instr.star ≠ .timeout ∧
    ∀ slot data, Instr.star ≠ .stWrite slot data := by
  refine ⟨⟨_, rfl⟩, by decide, by decide, by decide, ?_⟩
  intro slot data h
  cases h

theorem witness_PhaseGraph : isEvent .tdone = true ∧ ∃ t, exec .tdone (at_ .tone) = .next t := ⟨rfl, _, rfl⟩

/-- A tone out of the sleep phase, and one in the step that takes the `TDONE` of the one before. -/
theorem witness_OneToneOutstanding :
    (nextOf (exec .irqw (menu_ 4 0))).map (fun t => (t.out.any isTone, waitsTone t.sch.phase)) = some (true, true) ∧
    (nextOf (exec .tdone (at_ .playTone))).map (fun t => (t.out.any isTone, waitsTone t.sch.phase)) = some (true, true) := by
  decide

/-- Not armed and armed. -/
theorem witness_WatchdogAlternates :
    (let s := (menu_ 0 0).setPhase .tone
     (s.sch.wdtArmed = true → s.sch.phase = .sleep) ∧ s.sch.wdtArmed = false ∧ (nextOf (exec .tdone s)).isSome = true) ∧
    (let s : State := { base with sch := { base.sch with wdtArmed := true } }
     (s.sch.wdtArmed = true → s.sch.phase = .sleep) ∧ s.sch.wdtArmed = true ∧ (nextOf (exec .irql s)).isSome = true) := by
  decide

theorem witness_SleepingBlockHolds : Legal base ∧ base.sch.phase = .sleep := by decide

end Sys2Proof.Tests
end

