-- ==== Sys2Proof/Proofs/Scope.lean ====
section
/-! PROOFS of the statements of 00_scope.md: what no instruction changes (O55), what a step runs (O6), which parameters
it refuses (O8), and the command words as instructions (O32). -/

namespace Sys2Proof.Machine

/-! ### What no instruction changes (rules R8, R20), with and without the store -/

/-- The fields that no instruction changes: the build's parameters, the trace, the clock count. -/
def State.fixed (s : State) : Params × List PortWord × Nat := (s.par, s.input, s.clock)

/-- The fixed fields and the store, which only a commit or an `ST_WRITE` changes (rules R64, R322). -/
def State.fixedAndStore (s : State) : (Params × List PortWord × Nat) × Memory := (s.fixed, s.ps)

theorem fixed_eq_iff {s t : State} :
    t.fixed = s.fixed ↔ t.par = s.par ∧ t.input = s.input ∧ t.clock = s.clock := by
  simp [State.fixed]

theorem fixedAndStore_eq_iff {s t : State} :
    t.fixedAndStore = s.fixedAndStore ↔ t.fixed = s.fixed ∧ t.ps = s.ps := by
  simp [State.fixedAndStore]

/-! ### The operations that leave the store alone -/

@[simp] theorem sampleLine_fixedAndStore (l : Line) (r : Bool) (s : State) :
    (sampleLine l r s).fixedAndStore = s.fixedAndStore := by
  cases l <;> rfl

@[simp] theorem initLine_fixedAndStore (l : Line) (s : State) :
    (initLine l s).fixedAndStore = s.fixedAndStore := by
  cases l <;> rfl

@[simp] theorem stepCounter_fixedAndStore (s : State) : (stepCounter s).fixedAndStore = s.fixedAndStore := rfl

@[simp] theorem digitEvent_fixedAndStore (d : Code) (s : State) :
    (digitEvent d s).fixedAndStore = s.fixedAndStore := rfl

@[simp] theorem escEvent_fixedAndStore (n : BitVec 2) (s : State) :
    (escEvent n s).fixedAndStore = s.fixedAndStore := rfl

@[simp] theorem startTone_fixedAndStore (code : Code) (ms : BitVec 16) (r : Bool) (s : State) :
    (startTone code ms r s).fixedAndStore = s.fixedAndStore := rfl

@[simp] theorem linePath_fixedAndStore (s : State) : (linePath s).fixedAndStore = s.fixedAndStore := rfl

@[simp] theorem loopTop_fixedAndStore (s : State) : (loopTop s).fixedAndStore = s.fixedAndStore := by
  rw [loopTop_eq]; rfl

theorem playNext_fixedAndStore (s : State) : (playNext s).fixedAndStore = s.fixedAndStore := by
  rcases playNext_cases s with ⟨j, hj, -, played⟩ | ended | ⟨-, absent⟩
  · rw [played]; rfl
  · rw [ended, loopTop_fixedAndStore]; rfl
  · rw [absent]; rfl

@[simp] theorem doAct_fixedAndStore (a : Action) (s : State) : (doAct a s).fixedAndStore = s.fixedAndStore := by
  cases a with
  | none => exact loopTop_fixedAndStore s
  | tone code ms => exact startTone_fixedAndStore code ms false s
  | dialout slot =>
    have loaded : (sdLoad slot s).fixedAndStore = s.fixedAndStore := by rw [sdLoad_eq]; rfl
    exact (playNext_fixedAndStore _).trans loaded

theorem tickConfirm_fixedAndStore (d : Bool) (s : State) : (tickConfirm d s).fixedAndStore = s.fixedAndStore := by
  rcases tickConfirm_cases d s with ⟨-, -, asserted⟩ | ⟨-, -, abandoned⟩ | ⟨-, -, -, confirmed⟩ | ⟨-, -, waiting⟩
  · rw [asserted]; rfl
  · rw [abandoned, loopTop_fixedAndStore]; rfl
  · rw [confirmed]; rfl
  · rw [waiting]; rfl

theorem tickGesture_fixedAndStore (d p : Bool) (s : State) :
    (tickGesture d p s).fixedAndStore = s.fixedAndStore := by
  rcases tickGesture_cases d p s with ⟨-, -, digit⟩ | ⟨-, -, discarded⟩ | ⟨-, escalated⟩ | ⟨-, goesOn⟩
  · rw [digit]; simp
  · rw [discarded]; simp
  · rw [escalated]; simp
  · rw [goesOn]; simp

/-! ### The operations that may write the store -/

theorem fixed_of_fixedAndStore {s t : State} (h : t.fixedAndStore = s.fixedAndStore) : t.fixed = s.fixed :=
  (fixedAndStore_eq_iff.mp h).1

theorem timeoutEvent_fixed (s : State) : (timeoutEvent s).fixed = s.fixed := by
  obtain ⟨new, ps, committed, -⟩ := timeoutEvent_cases s
  rw [committed]; rfl

theorem timeoutPath_fixed (s : State) : (timeoutPath s).fixed = s.fixed :=
  calc (timeoutPath s).fixed
      = (timeoutEvent s).fixed := fixed_of_fixedAndStore (doAct_fixedAndStore _ _)
    _ = s.fixed := timeoutEvent_fixed s

theorem wake_fixed (s : State) : (wake s).fixed = s.fixed := by
  rw [wake_eq]
  split
  · exact timeoutPath_fixed _
  · rfl

/-! ### Every instruction completes, and keeps these fields -/

/-- The instructions that may write the store: those that may commit PendingNumber, and `ST_WRITE`. -/
def mayWriteStore : Instr → Bool
  | .irqw | .irql | .timeout | .stWrite _ _ => true
  | _ => false

theorem mayWriteStore_eq_false {i : Instr} (hw : i ≠ .irqw) (hl : i ≠ .irql) (ht : i ≠ .timeout)
    (hs : ∀ slot data, i ≠ .stWrite slot data) : mayWriteStore i = false := by
  cases i with
  | irqw => exact absurd rfl hw
  | irql => exact absurd rfl hl
  | timeout => exact absurd rfl ht
  | stWrite slot data => exact absurd rfl (hs slot data)
  | _ => rfl

theorem execTdone_fixedAndStore (s : State) :
    ∃ t, execTdone s = .next t ∧ t.fixedAndStore = s.fixedAndStore := by
  unfold execTdone
  cases s.sch.phase with
  | tone =>
    cases s.sch.retGesture with
    | true => exact ⟨_, rfl, rfl⟩
    | false => exact ⟨_, rfl, loopTop_fixedAndStore s⟩
  | playGap => exact ⟨_, rfl, playNext_fixedAndStore _⟩
  | _ => exact ⟨_, rfl, rfl⟩

theorem execTick_fixedAndStore (d p : Bool) (s : State) :
    ∃ t, execTick d p s = .next t ∧ t.fixedAndStore = s.fixedAndStore := by
  unfold execTick
  cases s.sch.phase with
  | confirm => exact ⟨_, rfl, tickConfirm_fixedAndStore d s⟩
  | gesture => exact ⟨_, rfl, tickGesture_fixedAndStore d p s⟩
  | _ => exact ⟨_, rfl, rfl⟩

theorem execIrqw_fixed (s : State) : ∃ t, execIrqw s = .next t ∧ t.fixed = s.fixed := by
  unfold execIrqw
  cases s.sch.phase with
  | sleep => exact ⟨_, rfl, wake_fixed _⟩
  | _ => exact ⟨_, rfl, rfl⟩

theorem execIrql_fixed (s : State) : ∃ t, execIrql s = .next t ∧ t.fixed = s.fixed := by
  unfold execIrql
  cases s.sch.phase with
  | sleep => exact ⟨_, rfl, wake_fixed s⟩
  | _ => exact ⟨_, rfl, rfl⟩

theorem execStWrite_fixed (slot : BitVec 3) (data : Slot) (s : State) :
    ∃ t, execStWrite slot data s = .next t ∧ t.fixed = s.fixed := by
  refine ⟨_, rfl, ?_⟩
  split <;> rfl

theorem execArm_fixedAndStore (cls : BitVec 3) (s : State) :
    ∃ t, execArm cls s = .next t ∧ t.fixedAndStore = s.fixedAndStore := by
  refine ⟨_, rfl, ?_⟩
  split <;> rfl

theorem execStRead_fixedAndStore (slot : BitVec 3) (s : State) :
    ∃ t, execStRead slot s = .next t ∧ t.fixedAndStore = s.fixedAndStore := by
  refine ⟨_, rfl, ?_⟩
  split <;> rfl

/-- The remaining instructions answer one record update of the state, whose fixed fields and store are the old ones by
`rfl`. -/
theorem exec_fixedAndStore (i : Instr) (s : State) (hi : mayWriteStore i = false) :
    ∃ t, exec i s = .next t ∧ t.fixedAndStore = s.fixedAndStore := by
  cases i with
  | irqw | irql | timeout | stWrite => cases hi
  | tdone => exact execTdone_fixedAndStore s
  | tick d p => exact execTick_fixedAndStore d p s
  | dbSample l r => exact ⟨_, rfl, sampleLine_fixedAndStore l r s⟩
  | dbInit l b => exact ⟨_, rfl, initLine_fixedAndStore l s⟩
  | actNone => exact ⟨_, rfl, doAct_fixedAndStore _ s⟩
  | actTone code ms => exact ⟨_, rfl, doAct_fixedAndStore _ s⟩
  | actDialout slot => exact ⟨_, rfl, doAct_fixedAndStore _ s⟩
  | arm cls => exact execArm_fixedAndStore cls s
  | stRead slot => exact execStRead_fixedAndStore slot s
  | _ => exact ⟨_, rfl, rfl⟩

/-- Rule R280, with the frame of every instruction. -/
theorem exec_fixed (i : Instr) (s : State) : ∃ t, exec i s = .next t ∧ t.fixed = s.fixed := by
  cases hi : mayWriteStore i with
  | false =>
    obtain ⟨t, he, hk⟩ := exec_fixedAndStore i s hi
    exact ⟨t, he, fixed_of_fixedAndStore hk⟩
  | true =>
    cases i with
    | irqw => exact execIrqw_fixed s
    | irql => exact execIrql_fixed s
    | timeout => exact ⟨_, rfl, timeoutEvent_fixed s⟩
    | stWrite slot data => exact execStWrite_fixed slot data s
    | _ => cases hi

/-- An instruction's next state is the one that another fact about the same instruction speaks of. -/
theorem exec_next_elim {P : State → Prop} {i : Instr} {s t : State} (h : ∃ u, exec i s = .next u ∧ P u)
    (ht : exec i s = .next t) : P t := by
  obtain ⟨u, hu, hp⟩ := h
  rw [hu] at ht
  cases ht
  exact hp

/-- Settles O55: the fixed fields by `exec_fixed`, the store by `exec_fixedAndStore`. -/
theorem buildAndStoreFrame : Obligations.BuildAndStoreFrame := by
  intro i s t ht
  obtain ⟨hpar, hinput, hclock⟩ := fixed_eq_iff.mp (exec_next_elim (exec_fixed i s) ht)
  refine ⟨hpar, hinput, hclock, fun hw hl hto hst => ?_⟩
  have hi : mayWriteStore i = false := mayWriteStore_eq_false hw hl hto hst
  exact (fixedAndStore_eq_iff.mp (exec_next_elim (exec_fixedAndStore i s hi) ht)).2

/-! ### What a step runs (rules R10, R71, R289) -/

theorem fetch_of_input {s : State} {w : PortWord} {rest : List PortWord} (h : s.input = w :: rest) : fetch s = w := by
  simp [fetch, h]

theorem beginClock_of_input {s : State} {w : PortWord} {rest : List PortWord} (h : s.input = w :: rest) :
    beginClock s = { s with input := rest, clock := s.clock + 1, out := [], pcOut := .outNone, act := .none } := by
  simp [beginClock, h]

/-- A list of one event runs that event. -/
theorem execAll_singleton (i : Instr) (s : State) : execAll [i] s = exec i s := by
  rw [execAll_cons]
  cases exec i s <;> rfl

/-- Settles O6: the word taken is the head of the trace, and a list of one event is that event. -/
theorem stepRunsDecoded : Obligations.StepRunsDecoded := by
  intro s w rest hv hin
  have runs : ∀ ev, decode w = .ok ev → step s = execAll ev
      { s with input := rest, clock := s.clock + 1, out := [], pcOut := .outNone, act := .none } := by
    intro ev hev
    rw [← beginClock_of_input hin]
    exact step_of_decode s ev hv (by rw [fetch_of_input hin, hev])
  exact ⟨fun i hi => by rw [runs [i] hi, execAll_singleton], runs⟩

/-! ### The parameters that are refused (rules R8, R9) -/

theorem params_valid_iff (p : Params) : p.valid = true ↔ 1 ≤ p.etPerMs ∧ 2000 * p.etPerMs ≤ 65534 := by
  have hc : confirmTicks ≤ 65534 := by decide
  simp only [Params.valid, Bool.and_eq_true, decide_eq_true_eq]
  exact ⟨fun h => h.1, fun h => ⟨h, hc⟩⟩

theorem step_of_not_valid {s : State} (h : ¬ s.par.valid = true) : step s = .refused .badParameters := by
  simp [step, clockPeriod, h]

/-- What a clock period does where the parameters hold and its word is no instruction's encoding. -/
theorem step_of_decode_error {s : State} {why : Reject} (hv : s.par.valid = true) (h : decode (fetch s) = .error why) :
    step s = .refused (.undefinedWord why) := by
  simp [step, clockPeriod, hv, h]

/-- Rule R280 for the events of one clock period. -/
theorem execAll_next (is : List Instr) (s : State) : ∃ t, execAll is s = .next t := by
  have each : ∀ i ∈ is, ∀ u : State, True → ∃ v, exec i u = .next v ∧ True := by
    intro i _ u _
    obtain ⟨v, hv, -⟩ := exec_fixed i u
    exact ⟨v, hv, trivial⟩
  obtain ⟨t, ht, -⟩ := execAll_completes is each s trivial
  exact ⟨t, ht⟩

theorem step_ne_badParameters {s : State} (hv : s.par.valid = true) : step s ≠ .refused .badParameters := by
  cases hd : decode (fetch s) with
  | ok is =>
    obtain ⟨t, ht⟩ := execAll_next is (beginClock s)
    simp [step_of_decode s is hv hd, ht]
  | error why => simp [step_of_decode_error hv hd]

/-- Settles O8: the step refuses exactly where `Params.valid` fails, and that is rule R9's bounds. -/
theorem badParametersRefused : Obligations.BadParametersRefused := by
  intro s
  refine ⟨rfl, rfl, fun hbad => step_of_not_valid fun hv => ?_, fun hok => step_ne_badParameters ?_⟩
  · have bounds := (params_valid_iff s.par).mp hv
    omega
  · exact (params_valid_iff s.par).mpr hok

/-! ### The command words as instructions (rules R40, R94 to R97; log entries 15, 22) -/

theorem exec_stRead_of_ne_zero (s : State) {slot : BitVec 3} (h : slot ≠ 0) :
    exec (.stRead slot) s = .next { s with out := s.out ++ [.stRead slot] } := by
  have taken : (if slot = 0 then s else issueStRead slot s) = issueStRead slot s := if_neg h
  exact congrArg Host.Outcome.next taken

/-- A class that rule R96 names. -/
theorem exec_arm_of_le_four (s : State) {cls : BitVec 3} (h : cls.toNat ≤ 4) :
    exec (.arm cls) s =
      .next { s with out := s.out ++ [.arm cls], sch := { s.sch with wdtArmed := true } } := by
  have taken : (if cls ≤ 4 then issueArm cls s else s) = issueArm cls s := if_pos (BitVec.le_def.mpr h)
  exact congrArg Host.Outcome.next taken

/-- Settles O32: the other four commands have no reserved operand, and each is its record update by `rfl`. -/
theorem commandsReachThePort : Obligations.CommandsReachThePort := by
  intro s
  refine ⟨fun _ _ => rfl, rfl, rfl, fun _ => exec_stRead_of_ne_zero s, fun _ => exec_arm_of_le_four s, rfl⟩

end Sys2Proof.Machine
end

/-! PROOFS of the statements of 10_state.md: every clock period keeps a state legal (O51), every instruction keeps the
store's canonical form (O54), the reset state is legal (O50), and the words and indices that name no cell (O34, O42). -/

namespace Sys2Proof.Machine

/-! ### The store's canonical form (rules R41, R63; log entry 14) -/

theorem timeoutEvent_wf {s : State} (h : s.ps.wf) : (timeoutEvent s).ps.wf := by
  obtain ⟨new, ps, committed, -, keeps⟩ := timeoutEvent_cases s
  rw [committed]
  exact keeps h

theorem timeoutPath_wf {s : State} (h : s.ps.wf) : (timeoutPath s).ps.wf := by
  have played : (timeoutPath s).ps = (timeoutEvent s).ps :=
    (fixedAndStore_eq_iff.mp (doAct_fixedAndStore _ (timeoutEvent s))).2
  rw [played]
  exact timeoutEvent_wf h

theorem wake_wf {s : State} (h : s.ps.wf) : (wake s).ps.wf := by
  rw [wake_eq]
  split
  · exact timeoutPath_wf h
  · exact h

theorem execIrqw_wf {s : State} (h : s.ps.wf) : ∃ t, execIrqw s = .next t ∧ t.ps.wf := by
  unfold execIrqw
  cases s.sch.phase with
  | sleep => exact ⟨_, rfl, wake_wf h⟩
  | _ => exact ⟨_, rfl, h⟩

theorem execIrql_wf {s : State} (h : s.ps.wf) : ∃ t, execIrql s = .next t ∧ t.ps.wf := by
  unfold execIrql
  cases s.sch.phase with
  | sleep => exact ⟨_, rfl, wake_wf h⟩
  | _ => exact ⟨_, rfl, h⟩

theorem execStWrite_wf (slot : BitVec 3) (data : Slot) {s : State} (h : s.ps.wf) :
    ∃ t, execStWrite slot data s = .next t ∧ t.ps.wf := by
  refine ⟨_, rfl, ?_⟩
  split
  · exact h
  · exact Memory.writeSlot_wf h ‹_› data

/-- An instruction that may not write the store keeps it whole; the four that may write it write whole slots 1 to 7. -/
theorem exec_wf (i : Instr) {s : State} (h : s.ps.wf) : ∃ t, exec i s = .next t ∧ t.ps.wf := by
  cases hi : mayWriteStore i with
  | false =>
    obtain ⟨t, ht, kept⟩ := exec_fixedAndStore i s hi
    have same : t.ps = s.ps := (fixedAndStore_eq_iff.mp kept).2
    exact ⟨t, ht, same ▸ h⟩
  | true =>
    cases i with
    | irqw => exact execIrqw_wf h
    | irql => exact execIrql_wf h
    | timeout => exact ⟨_, rfl, timeoutEvent_wf h⟩
    | stWrite slot data => exact execStWrite_wf slot data h
    | _ => cases hi

/-- Settles O54. -/
theorem storeFormKept : Obligations.StoreFormKept :=
  fun i _ _ hs ht => exec_next_elim (exec_wf i hs) ht

/-! ### The legal registers (rule R45) -/

/-- The part of `Legal` about `dial_command_fsm`. -/
structure FsmLegal (f : DialFsm) : Prop where
  pend : pendLegal f
  redial : redialLegal f
  menu : f.menu ≤ 4

/-- The part of `Legal` about the block's registers, without the store, the parameters and the trace. -/
structure RegistersLegal (s : State) : Prop where
  fsm : FsmLegal s.fsm
  counter : counterLegal s.pc
  phase : phaseLegal s

theorem legal_iff {s : State} :
    Legal s ↔ RegistersLegal s ∧ s.ps.wf ∧ s.par.valid = true ∧ pinsOnly s := by
  constructor
  · rintro ⟨pend, redial, menu, counter, phase, rest⟩
    exact ⟨⟨⟨pend, redial, menu⟩, counter, phase⟩, rest⟩
  · rintro ⟨⟨⟨pend, redial, menu⟩, counter, phase⟩, rest⟩
    exact ⟨pend, redial, menu, counter, phase, rest⟩

/-! ### What `phaseLegal` asks in each phase -/

theorem phaseLegal_sleep {s : State} (h : s.sch.phase = .sleep) :
    phaseLegal s ↔ s.dbDial.level = true ∧ s.sch.retGesture = false ∧ s.pc.escArmed = false ∧ s.pc.sfRun = false := by
  simp [phaseLegal, lineIdle, inGesture, playing, h]

theorem phaseLegal_confirm {s : State} (h : s.sch.phase = .confirm) :
    phaseLegal s ↔ s.sch.wdtArmed = false ∧ s.sch.retGesture = false ∧ s.pc.escArmed = false := by
  simp [phaseLegal, lineIdle, inGesture, playing, h]

theorem phaseLegal_gesture {s : State} (h : s.sch.phase = .gesture) :
    phaseLegal s ↔ s.sch.wdtArmed = false ∧ s.sch.retGesture = false := by
  simp [phaseLegal, lineIdle, inGesture, playing, h]

/-- The tone of an escalation, inside a gesture. -/
theorem phaseLegal_tone_return {s : State} (h : s.sch.phase = .tone) (hr : s.sch.retGesture = true) :
    phaseLegal s ↔ s.sch.wdtArmed = false := by
  simp [phaseLegal, lineIdle, inGesture, playing, h, hr]

/-- The tone that ends an iteration. -/
theorem phaseLegal_tone_last {s : State} (h : s.sch.phase = .tone) (hr : s.sch.retGesture = false) :
    phaseLegal s ↔
      s.dbDial.level = true ∧ s.sch.wdtArmed = false ∧ s.pc.escArmed = false ∧ s.pc.sfRun = false := by
  simp [phaseLegal, lineIdle, inGesture, playing, h, hr]

theorem phaseLegal_play {s : State} (h : s.sch.phase = .playTone ∨ s.sch.phase = .playGap) :
    phaseLegal s ↔ s.dbDial.level = true ∧ s.sch.wdtArmed = false ∧ s.sch.retGesture = false ∧
      s.pc.escArmed = false ∧ s.pc.sfRun = false ∧ playCellOk s.fsm = true := by
  rcases h with h | h <;> simp [phaseLegal, lineIdle, inGesture, playing, h]

/-! ### The registers of `dial_command_fsm` (rules R45 (a), (h), R181 to R197) -/

theorem pendLegal_empty {f : DialFsm} (hp : f.pend = slotOff) (hl : f.pendLen = 0) : pendLegal f := by
  simp [pendLegal, hp, hl, slotOff]

/-- One code typed where there was room: its cell was the first of the filler. -/
theorem pendLegal_append {f g : DialFsm} {c : Code} (h : pendLegal f) (hc : c ≤ codeMaxValid)
    (room : f.pendLen.toNat < slotCap) (hp : g.pend = f.pend.setIfInBounds f.pendLen.toNat c)
    (hl : g.pendLen = f.pendLen + 1) : pendLegal g := by
  obtain ⟨-, cells⟩ := h
  have len : g.pendLen.toNat = f.pendLen.toNat + 1 := by
    rw [hl]; simp only [slotCap] at room; bv_omega
  refine ⟨by omega, fun i => ?_⟩
  have old := cells i
  have cell : g.pend[i] = if f.pendLen.toNat = i.val then c else f.pend[i] := by
    simp [hp, Vector.getElem_setIfInBounds]
  rw [cell, len]
  rcases Nat.lt_trichotomy i.val f.pendLen.toNat with before | new | after
  · rw [if_pos before] at old
    rw [if_pos (by omega), if_neg (by omega)]
    exact old
  · rw [if_pos (by omega), if_pos new.symm]
    exact hc
  · rw [if_neg (by omega)] at old
    rw [if_neg (by omega), if_neg (by omega)]
    exact old

/-- A digit leaves PendingNumber as it was, empties it, or types one dialable code. -/
theorem fsmDigit_pendLegal (p : Params) {d : Code} {f : DialFsm} (hd : d ≤ codeMaxValid) (h : pendLegal f) :
    pendLegal (fsmDigit p d f).1 := by
  rcases fsmDigit_pend p d f with ⟨hp, hl⟩ | ⟨hp, hl⟩ | ⟨room, c, hc, hp, hl⟩
  · unfold pendLegal
    rw [hp, hl]
    exact h
  · exact pendLegal_empty hp hl
  · refine pendLegal_append h ?_ room hp hl
    rcases hc with rfl | rfl | rfl
    · exact hd
    · decide
    · decide

theorem fsmDigit_legal (p : Params) {d : Code} {f : DialFsm} (hd : d ≤ codeMaxValid) (h : FsmLegal f) :
    FsmLegal (fsmDigit p d f).1 where
  pend := fsmDigit_pendLegal p hd h.pend
  redial := by
    obtain ⟨hrd, -, -⟩ := fsmDigit_frame p d f
    unfold redialLegal
    rw [hrd]
    exact h.redial
  menu := fsmDigit_menu p d f

theorem escMenu_le (n : BitVec 2) : escMenu n ≤ 4 := by
  revert n
  decide

/-- PendingNumber is fit to be the redial slot. -/
theorem redialLegal_of_pend {f g : DialFsm} (h : pendLegal f) (hr : g.rd = f.pend) : redialLegal g := by
  intro i
  have cell := h.2 i
  rw [hr]
  split at cell
  · exact .inl cell
  · exact .inr cell

/-- A commit empties PendingNumber, into the redial slot where the target is slot 0. -/
theorem timeoutEvent_fsmLegal {s : State} (h : FsmLegal s.fsm) : FsmLegal (timeoutEvent s).fsm := by
  obtain ⟨new, ps, committed, -, -⟩ := timeoutEvent_cases s
  rw [committed]
  refine ⟨pendLegal_empty rfl rfl, ?_, (by decide : (0 : BitVec 3) ≤ 4)⟩
  by_cases ht : s.fsm.target = 0
  · exact redialLegal_of_pend h.pend (if_pos ht)
  · unfold redialLegal
    simp only [if_neg ht]
    exact h.redial

/-! ### The counter (rules R25, R30, R45 (g)) -/

/-- `PC_STEP` with the dial line idle or asserted; an escalation that is not the last leaves less than three behind. -/
theorem pcStep_counterLegal (p : Params) (dl pl ch : Bool) {x : PulseCounter} (h : counterLegal x) :
    counterLegal (pcStep p dl pl ch x).1 := by
  obtain ⟨digit, armed⟩ := h
  rcases pcStep_cases p dl pl ch x with ⟨-, e⟩ | ⟨-, -, -, e⟩ | ⟨-, -, ha, -, e⟩ | ⟨-, -, -, e⟩
  · rw [e]
    refine ⟨pcResolve_digit p (pcStop x), ?_⟩
    rw [pcResolve_frame]
    simp [pcStop]
  · rw [e]
    exact ⟨digit, by simp⟩
  · rw [e]
    obtain ⟨unseen, below⟩ := armed ha
    refine ⟨digit, fun next => ⟨unseen, ?_⟩⟩
    have step : ∀ n : BitVec 2, n < 3 → n + 1 ≠ escLevels → n + 1 < 3 := by decide
    exact step x.esc below (of_decide_eq_true next)
  · rw [e]
    exact ⟨digit, armed⟩

theorem pcStop_counterLegal {x : PulseCounter} (h : counterLegal x) : counterLegal (pcStop x) := by
  obtain ⟨digit, -⟩ := h
  exact ⟨digit, by simp [pcStop]⟩

theorem pcStart_counterLegal (m : Bool) (x : PulseCounter) : counterLegal (pcStart m x) := by
  simp [counterLegal, pcStart]

theorem pcEtick_eq (x : PulseCounter) : pcEtick x = { x with sfCnt := (pcEtick x).sfCnt } := by
  unfold pcEtick
  split <;> rfl

/-- The end of a gesture is seen on an idle dial line, and stops the counter (rules R154, R160). -/
theorem stepCounter_of_outEnd {s : State} (h : (stepCounter s).pcOut = .outEnd) :
    (stepCounter s).dbDial.level = true ∧ (stepCounter s).pc.escArmed = false ∧ (stepCounter s).pc.sfRun = false := by
  rw [stepCounter_eq] at h ⊢
  rcases pcStep_cases s.par s.dbDial.level s.dbPulse.level s.dbPulse.changed s.pc with
    ⟨idle, e⟩ | ⟨-, -, -, e⟩ | ⟨-, -, -, -, e⟩ | ⟨-, -, -, e⟩
  · rw [e, pcResolve_frame]
    exact ⟨idle, rfl, rfl⟩
  all_goals
    rw [e] at h
    cases h

theorem digitCode_le {d : BitVec 4} (h : d ≤ 9) : digitCode d ≤ codeMaxValid := by
  revert d
  decide

/-! ### The end of an iteration of the scheduler's loop (rules R231, R242) -/

/-- The state in which an action is played: the gesture is over and the line idle, with nothing armed and nothing
counted. From such a state every way of `DO_ACT` leads to legal registers. -/
structure IterationOver (s : State) : Prop where
  fsm : FsmLegal s.fsm
  counter : counterLegal s.pc
  lineIdle : s.dbDial.level = true
  noEscalation : s.pc.escArmed = false
  holdStopped : s.pc.sfRun = false
  noReturn : s.sch.retGesture = false
  disarmed : s.sch.wdtArmed = false

theorem loopTop_legal {s : State} (h : IterationOver s) : RegistersLegal (loopTop s) := by
  rw [loopTop_eq]
  exact ⟨h.fsm, h.counter, (phaseLegal_sleep rfl).mpr ⟨h.lineIdle, h.noReturn, h.noEscalation, h.holdStopped⟩⟩

theorem startTone_legal (code : Code) (ms : BitVec 16) {s : State} (h : IterationOver s) :
    RegistersLegal (startTone code ms false s) :=
  ⟨h.fsm, h.counter,
    (phaseLegal_tone_last rfl rfl).mpr ⟨h.lineIdle, h.disarmed, h.noEscalation, h.holdStopped⟩⟩

/-- The registers of a dial-out are no part of `FsmLegal`. -/
theorem FsmLegal.withPlay {f : DialFsm} (h : FsmLegal f) (pb : Slot) (idx : BitVec 5) :
    FsmLegal { f with pb := pb, playIdx := idx } :=
  ⟨h.pend, h.redial, h.menu⟩

theorem IterationOver.withPlay {s : State} (h : IterationOver s) (pb : Slot) (idx : BitVec 5) (out : List Command) :
    IterationOver { s with fsm := { s.fsm with pb := pb, playIdx := idx }, out := out } :=
  ⟨h.fsm.withPlay pb idx, h.counter, h.lineIdle, h.noEscalation, h.holdStopped, h.noReturn, h.disarmed⟩

theorem playCellOk_of_le {f : DialFsm} {j : Nat} (hj : j < slotCap) (h : f.pb[j] ≤ codeMaxValid) :
    playCellOk { f with playIdx := BitVec.ofNat 5 j } = true := by
  have index : (BitVec.ofNat 5 j).toNat = j := by
    simp only [slotCap] at hj
    simp only [BitVec.toNat_ofNat]
    omega
  simp [playCellOk, index, hj, h]

theorem playNext_legal {s : State} (h : IterationOver s) (hi : s.fsm.playIdx.toNat ≤ slotCap) :
    RegistersLegal (playNext s) := by
  rcases playNext_cases s with ⟨j, hj, dialable, played⟩ | ended | ⟨past, -⟩
  · rw [played]
    refine ⟨h.fsm.withPlay _ _, h.counter, (phaseLegal_play (.inl rfl)).mpr ?_⟩
    exact ⟨h.lineIdle, h.disarmed, h.noReturn, h.noEscalation, h.holdStopped, playCellOk_of_le hj dialable⟩
  · rw [ended]
    exact loopTop_legal (h.withPlay _ _ _)
  · omega

theorem doAct_legal (a : Action) {s : State} (h : IterationOver s) : RegistersLegal (doAct a s) := by
  cases a with
  | none => exact loopTop_legal h
  | tone code ms => exact startTone_legal code ms h
  | dialout slot =>
    have loaded : doAct (.dialout slot) s = playNext (sdLoad slot s) := rfl
    rw [loaded, sdLoad_eq]
    exact playNext_legal (h.withPlay _ _ _) (Nat.zero_le _)

theorem digitEvent_iterationOver {d : Code} {s : State} (hd : d ≤ codeMaxValid) (h : IterationOver s) :
    IterationOver (digitEvent d s) :=
  ⟨fsmDigit_legal s.par hd h.fsm, h.counter, h.lineIdle, h.noEscalation, h.holdStopped, h.noReturn, h.disarmed⟩

theorem timeoutEvent_iterationOver {s : State} (h : IterationOver s) : IterationOver (timeoutEvent s) := by
  have fsm := timeoutEvent_fsmLegal h.fsm
  obtain ⟨new, ps, committed, -, -⟩ := timeoutEvent_cases s
  rw [committed] at fsm ⊢
  exact ⟨fsm, h.counter, h.lineIdle, h.noEscalation, h.holdStopped, h.noReturn, h.disarmed⟩

theorem timeoutPath_legal {s : State} (h : IterationOver s) : RegistersLegal (timeoutPath s) :=
  doAct_legal _ (timeoutEvent_iterationOver h)

theorem linePath_legal {s : State} (h : IterationOver s) : RegistersLegal (linePath s) := by
  rw [linePath_eq]
  exact ⟨h.fsm, h.counter, (phaseLegal_confirm rfl).mpr ⟨h.disarmed, h.noReturn, h.noEscalation⟩⟩

/-! ### The block's own input events keep the registers legal (rules R232 to R247, R320) -/

theorem resetBlock_legal (s : State) : RegistersLegal (resetBlock s) := by
  rw [resetBlock_eq]
  have menu : mDial ≤ 4 := by decide
  refine ⟨⟨pendLegal_empty rfl rfl, ?_, menu⟩, by simp [counterLegal], ?_⟩
  · simp [redialLegal, slotOff]
  · exact (phaseLegal_sleep rfl).mpr ⟨rfl, rfl, rfl, rfl⟩

theorem wake_legal {s : State} (hp : s.sch.phase = .sleep) (h : RegistersLegal s) : RegistersLegal (wake s) := by
  obtain ⟨idle, noReturn, noEscalation, holdStopped⟩ := (phaseLegal_sleep hp).mp h.phase
  rw [wake_eq]
  split
  · exact timeoutPath_legal ⟨h.fsm, h.counter, idle, noEscalation, holdStopped, noReturn, rfl⟩
  · exact linePath_legal ⟨h.fsm, h.counter, idle, noEscalation, holdStopped, noReturn, rfl⟩

theorem tickConfirm_legal (d : Bool) {s : State} (hp : s.sch.phase = .confirm) (h : RegistersLegal s) :
    RegistersLegal (tickConfirm d s) := by
  obtain ⟨disarmed, noReturn, noEscalation⟩ := (phaseLegal_confirm hp).mp h.phase
  rcases tickConfirm_cases d s with ⟨-, -, asserted⟩ | ⟨idle, -, abandoned⟩ | ⟨-, -, -, confirmed⟩ | ⟨-, -, waiting⟩
  · rw [asserted]
    refine ⟨h.fsm, h.counter, (phaseLegal_confirm ?_).mpr ⟨disarmed, noReturn, noEscalation⟩⟩
    exact hp
  · rw [abandoned]
    exact loopTop_legal ⟨h.fsm, pcStop_counterLegal h.counter, idle, rfl, rfl, noReturn, disarmed⟩
  · rw [confirmed]
    exact ⟨h.fsm, pcStart_counterLegal _ _, (phaseLegal_gesture rfl).mpr ⟨disarmed, noReturn⟩⟩
  · rw [waiting]
    refine ⟨h.fsm, h.counter, (phaseLegal_confirm ?_).mpr ⟨disarmed, noReturn, noEscalation⟩⟩
    exact hp

theorem sampleLine_gesture_legal (l : Line) (r : Bool) {s : State} (h : RegistersLegal s)
    (hp : s.sch.phase = .gesture) : RegistersLegal (sampleLine l r s) := by
  have waiting := (phaseLegal_gesture hp).mp h.phase
  cases l <;> exact ⟨h.fsm, h.counter, (phaseLegal_gesture (by exact hp)).mpr waiting⟩

theorem stepCounter_gesture_legal {s : State} (h : RegistersLegal s) (hp : s.sch.phase = .gesture) :
    RegistersLegal (stepCounter s) := by
  have waiting := (phaseLegal_gesture hp).mp h.phase
  exact ⟨h.fsm, pcStep_counterLegal _ _ _ _ h.counter, (phaseLegal_gesture (by exact hp)).mpr waiting⟩

theorem stepCounter_iterationOver {s : State} (h : RegistersLegal s) (hp : s.sch.phase = .gesture)
    (hout : (stepCounter s).pcOut = .outEnd) : IterationOver (stepCounter s) := by
  obtain ⟨disarmed, noReturn⟩ := (phaseLegal_gesture hp).mp h.phase
  obtain ⟨idle, noEscalation, holdStopped⟩ := stepCounter_of_outEnd hout
  exact ⟨h.fsm, pcStep_counterLegal _ _ _ _ h.counter, idle, noEscalation, holdStopped, noReturn, disarmed⟩

theorem tickGesture_legal (d p : Bool) {s : State} (hp : s.sch.phase = .gesture) (h : RegistersLegal s) :
    RegistersLegal (tickGesture d p s) := by
  have sampled : RegistersLegal (sampleLine .pulse p (sampleLine .dial d s)) :=
    sampleLine_gesture_legal .pulse p (sampleLine_gesture_legal .dial d h hp) hp
  have stepped := stepCounter_gesture_legal sampled hp
  rcases tickGesture_cases d p s with
    ⟨hout, valid, digit⟩ | ⟨hout, -, discarded⟩ | ⟨-, escalated⟩ | ⟨-, goesOn⟩
  · rw [digit]
    obtain ⟨decimal, -⟩ := stepped.counter
    rw [if_pos valid] at decimal
    exact doAct_legal _ (digitEvent_iterationOver (digitCode_le decimal) (stepCounter_iterationOver sampled hp hout))
  · rw [discarded]
    exact loopTop_legal (stepCounter_iterationOver sampled hp hout)
  · rw [escalated]
    obtain ⟨disarmed, -⟩ := (phaseLegal_gesture hp).mp h.phase
    exact ⟨⟨h.fsm.pend, h.fsm.redial, escMenu_le _⟩, stepped.counter, (phaseLegal_tone_return rfl rfl).mpr disarmed⟩
  · rw [goesOn]
    exact stepped

theorem execIrqw_legal {s : State} (h : RegistersLegal s) : ∃ t, execIrqw s = .next t ∧ RegistersLegal t := by
  have latched : RegistersLegal (s.setSch { s.sch with wakeTimeout := true }) := ⟨h.fsm, h.counter, h.phase⟩
  unfold execIrqw
  cases hp : s.sch.phase with
  | sleep => exact ⟨_, rfl, wake_legal hp latched⟩
  | _ => exact ⟨_, rfl, latched⟩

theorem execIrql_legal {s : State} (h : RegistersLegal s) : ∃ t, execIrql s = .next t ∧ RegistersLegal t := by
  unfold execIrql
  cases hp : s.sch.phase with
  | sleep => exact ⟨_, rfl, wake_legal hp h⟩
  | _ => exact ⟨_, rfl, h⟩

/-- One more than an index that names a cell is at most the end. -/
theorem playIdx_succ_le {f : DialFsm} (h : playCellOk f = true) : (f.playIdx + 1).toNat ≤ slotCap := by
  have named : f.playIdx.toNat < slotCap := by
    by_contra past
    simp [playCellOk, past] at h
  simp only [slotCap] at named ⊢
  bv_omega

theorem execTdone_legal {s : State} (h : RegistersLegal s) : ∃ t, execTdone s = .next t ∧ RegistersLegal t := by
  unfold execTdone
  cases hp : s.sch.phase with
  | tone =>
    cases hr : s.sch.retGesture with
    | true =>
      have disarmed := (phaseLegal_tone_return hp hr).mp h.phase
      exact ⟨_, rfl, h.fsm, h.counter, (phaseLegal_gesture rfl).mpr ⟨disarmed, rfl⟩⟩
    | false =>
      obtain ⟨idle, disarmed, noEscalation, holdStopped⟩ := (phaseLegal_tone_last hp hr).mp h.phase
      exact ⟨_, rfl, loopTop_legal ⟨h.fsm, h.counter, idle, noEscalation, holdStopped, hr, disarmed⟩⟩
  | playTone =>
    have waiting := (phaseLegal_play (.inl hp)).mp h.phase
    exact ⟨_, rfl, h.fsm, h.counter, (phaseLegal_play (.inr rfl)).mpr waiting⟩
  | playGap =>
    obtain ⟨idle, disarmed, noReturn, noEscalation, holdStopped, cell⟩ := (phaseLegal_play (.inr hp)).mp h.phase
    have gapOver : IterationOver s := ⟨h.fsm, h.counter, idle, noEscalation, holdStopped, noReturn, disarmed⟩
    exact ⟨_, rfl, playNext_legal (gapOver.withPlay _ _ _) (playIdx_succ_le cell)⟩
  | _ => exact ⟨_, rfl, h⟩

theorem execEtick_legal {s : State} (h : RegistersLegal s) : ∃ t, execEtick s = .next t ∧ RegistersLegal t := by
  refine ⟨_, rfl, ?_⟩
  rw [pcEtick_eq]
  exact ⟨h.fsm, h.counter, h.phase⟩

theorem execTick_legal (d p : Bool) {s : State} (h : RegistersLegal s) :
    ∃ t, execTick d p s = .next t ∧ RegistersLegal t := by
  unfold execTick
  cases hp : s.sch.phase with
  | confirm => exact ⟨_, rfl, tickConfirm_legal d hp h⟩
  | gesture => exact ⟨_, rfl, tickGesture_legal d p hp h⟩
  | _ => exact ⟨_, rfl, h⟩

theorem exec_registersLegal {i : Instr} {s : State} (hi : isEvent i = true) (h : RegistersLegal s) :
    ∃ t, exec i s = .next t ∧ RegistersLegal t := by
  cases i with
  | reset => exact ⟨_, rfl, resetBlock_legal s⟩
  | nop d p => exact ⟨_, rfl, h⟩
  | irqw => exact execIrqw_legal h
  | irql => exact execIrql_legal h
  | tdone => exact execTdone_legal h
  | etick => exact execEtick_legal h
  | tick d p => exact execTick_legal d p h
  | _ => cases hi

/-! ### The clock period (rules R10, R92, R93, R289) -/

/-- An event keeps a state legal: its registers by their cases, the store by its canonical form, the rest untouched. -/
theorem exec_legal {i : Instr} {s : State} (hi : isEvent i = true) (h : Legal s) :
    ∃ t, exec i s = .next t ∧ Legal t := by
  obtain ⟨registers, store, valid, pins⟩ := legal_iff.mp h
  obtain ⟨t, ht, legal⟩ := exec_registersLegal hi registers
  have stored : t.ps.wf := exec_next_elim (exec_wf i store) ht
  obtain ⟨hpar, hinput, -⟩ := fixed_eq_iff.mp (exec_next_elim (exec_fixed i s) ht)
  refine ⟨t, ht, legal_iff.mpr ⟨legal, stored, ?_, ?_⟩⟩
  · rwa [hpar]
  · unfold pinsOnly
    rwa [hinput]

theorem beginClock_legal {s : State} (h : Legal s) : Legal (beginClock s) := by
  obtain ⟨registers, store, valid, pins⟩ := legal_iff.mp h
  refine legal_iff.mpr ⟨⟨registers.fsm, registers.counter, registers.phase⟩, store, valid, fun w hw => ?_⟩
  exact pins w (List.mem_of_mem_tail hw)

theorem fetch_isPins {s : State} (h : pinsOnly s) : isPins (fetch s) = true := by
  unfold fetch
  split
  · exact h _ (by simp [*])
  · rfl

/-- A clock period's pins always decode, to events of the block alone. -/
theorem decode_pins {w : PortWord} (h : isPins w = true) :
    ∃ is, decode w = .ok is ∧ ∀ i ∈ is, isEvent i = true := by
  cases w with
  | pins rst v =>
    cases rst with
    | true => exact ⟨_, rfl, by simp [isEvent]⟩
    | false =>
      refine ⟨_, rfl, fun i hi => ?_⟩
      obtain ⟨event, -⟩ := eventsOf_isEvent v i hi
      exact event
  | _ => cases h

/-- A clock period from a legal state completes in a legal state. -/
theorem step_legal {s : State} (h : Legal s) : ∃ t, step s = .next t ∧ Legal t := by
  obtain ⟨-, -, valid, pins⟩ := legal_iff.mp h
  obtain ⟨is, decoded, events⟩ := decode_pins (fetch_isPins pins)
  rw [step_of_decode s is valid decoded]
  exact execAll_completes is (fun i hi u hu => exec_legal (events i hi) hu) _ (beginClock_legal h)

/-- Settles O51, by `step_legal`: the events of the period keep the state legal one after the other. -/
theorem stepKeepsLegal : Obligations.StepKeepsLegal := by
  intro s t hs ht
  obtain ⟨u, hu, legal⟩ := step_legal hs
  rw [hu] at ht
  cases ht
  exact legal

/-! ### The reset state (rules R320, R346) -/

/-- `State.reset` is what `RESET` leaves in the default build. -/
theorem reset_eq_resetBlock : State.reset = resetBlock { State.reset with out := [] } := rfl

/-- Settles O50: the registers are those of `RESET`, with an empty store and no trace placed. -/
theorem resetIsLegal : Obligations.ResetIsLegal := by
  refine ⟨legal_iff.mpr ⟨?_, Memory.reset_wf, ?_, ?_⟩, rfl, rfl⟩
  · rw [reset_eq_resetBlock]
    exact resetBlock_legal _
  · exact (params_valid_iff _).mpr (by decide)
  · simp [pinsOnly, State.reset]

/-! ### Words and indices that name no cell (log entries 11, 12) -/

/-- Settles O34: `execStRead` and `execStWrite` test for slot 0 before they issue the command. -/
theorem storeSlotZeroIgnored : Obligations.StoreSlotZeroIgnored :=
  fun _ _ => ⟨rfl, rfl⟩

theorem exec_tdone_of_playGap {s : State} (h : s.sch.phase = .playGap) :
    exec .tdone s = .next (playNext { s with fsm := { s.fsm with playIdx := s.fsm.playIdx + 1 } }) := by
  have taken : execTdone s = .next (playNext { s with fsm := { s.fsm with playIdx := s.fsm.playIdx + 1 } }) := by
    simp only [execTdone, h]
    rfl
  exact taken

/-- Settles O42: after index 30 the search starts past the end and stays there; after index 31 it starts at cell 0. -/
theorem playIndexNamesNoCell : Obligations.PlayIndexNamesNoCell := by
  intro s hp
  rw [exec_tdone_of_playGap hp]
  have past : slotCap < ((30 : BitVec 5) + 1).toNat := by decide
  have start : ((31 : BitVec 5) + 1).toNat ≤ slotCap := by decide
  refine ⟨fun h30 => ?_, fun h31 => ⟨fun j dialable first => ?_, fun silent => ?_⟩⟩
  · rw [h30, playNext_absent _ past]
    rfl
  · rw [h31, playNext_found _ j j.isLt]
    · rfl
    · exact playScan_found _ _ _ start j.isLt (Nat.zero_le _) dialable fun k hk _ hlt => first ⟨k, hk⟩ hlt
  · rw [h31, playNext_none]
    · rfl
    · exact playScan_none _ _ start fun k hk _ => silent ⟨k, hk⟩

end Sys2Proof.Machine

/-! PROOFS of the statements of 20_memory.md: what `ST_WRITE` replaces in the store and what it leaves alone (O33), and
the second commit that writes nothing (O31). -/

namespace Sys2Proof.Machine

/-! ### `ST_WRITE` (rules R63, R65; log entries 14, 15) -/

/-- Each cell of a slot just written holds its code as a whole byte, the three upper bits clear. -/
theorem Memory.read_writeSlot_cell {m : Memory} (hm : m.rising) (slot : BitVec 3) (data : Slot) (i : Fin slotCap) :
    (m.writeSlot slot data).read (cellAddr slot i) = data[i].setWidth 8 := by
  have hi : i.val < data.toList.length := by simp
  calc (m.writeSlot slot data).read (cellAddr slot i)
      = (m.writeCells (cellAddr slot 0) data.toList).read (cellAddr slot 0 + i) := rfl
    _ = data.toList[i.val].setWidth 8 := Memory.read_writeCells hm _ _ _ hi
    _ = data[i].setWidth 8 := by simp

theorem exec_stWrite_of_ne_zero (data : Slot) (s : State) {slot : BitVec 3} (h : slot ≠ 0) :
    exec (.stWrite slot data) s =
      .next { s with out := s.out ++ [.stWrite slot data], ps := s.ps.writeSlot slot data } := by
  have taken : (if slot = 0 then s else issueStWrite slot data s) = issueStWrite slot data s := if_neg h
  exact congrArg Host.Outcome.next taken

/-- Settles O33: the one update of the state is a `writeSlot`, whose cells, frame and form are the store's own lemmas. -/
theorem storeWriteReplacesSlot : Obligations.StoreWriteReplacesSlot := by
  intro slot data s hslot hwf
  have cells := Memory.read_writeSlot_cell hwf.1 slot data
  have others : ∀ a, (∀ i : Fin 30, a ≠ cellAddr slot i) → (s.ps.writeSlot slot data).read a = s.ps.read a :=
    fun a outside => Memory.read_writeSlot_other _ slot data a fun i hi => outside ⟨i, hi⟩
  have form := Memory.writeSlot_wf hwf hslot data
  exact ⟨_, exec_stWrite_of_ne_zero data s hslot, rfl, cells, others, form,
    rfl, rfl, rfl, rfl, rfl, rfl, rfl, rfl, rfl, rfl⟩

/-! ### A commit repeated (rules R67, R198) -/

theorem timeoutEvent_target (s : State) : (timeoutEvent s).fsm.target = s.fsm.target := by
  obtain ⟨new, ps, committed, -⟩ := timeoutEvent_cases s
  rw [committed]

/-- A commit to a persisted slot leaves PendingNumber in the slot, whether or not it had to write it. -/
theorem timeoutEvent_readSlot {s : State} (hm : s.ps.rising) (h : s.fsm.target ≠ 0) :
    (timeoutEvent s).ps.readSlot s.fsm.target = s.fsm.pend := by
  by_cases holds : s.ps.readSlot s.fsm.target = s.fsm.pend
  · rw [timeoutEvent_equal s h holds]
    exact holds
  · rw [timeoutEvent_differ s h holds]
    exact Memory.readSlot_writeSlot_same hm _ _

/-- A commit of what the slot already holds issues its read and leaves the store alone. -/
theorem exec_timeout_of_held {s : State} (h : s.fsm.target ≠ 0) (held : s.ps.readSlot s.fsm.target = s.fsm.pend) :
    ∃ u, exec .timeout s = .next u ∧ u.out = s.out ++ [.stRead s.fsm.target] ∧ u.ps = s.ps :=
  ⟨_, congrArg Host.Outcome.next (timeoutEvent_equal s h held), rfl, rfl⟩

/-- Settles O31: the first commit leaves PendingNumber in its slot, so the second finds it held. -/
theorem secondCommitWritesNothing : Obligations.SecondCommitWritesNothing := by
  intro s t hwf htarget ht
  obtain rfl : timeoutEvent s = t := Host.Outcome.next.inj ht
  have held := timeoutEvent_readSlot hwf.1 htarget
  rw [← timeoutEvent_target s] at htarget held ⊢
  exact exec_timeout_of_held htarget held

end Sys2Proof.Machine

/-! PROOFS of the statements of 30_encoding.md: the decoder and the encoder are each other's inverse (O1, O2), what a
vector and a trace line select (O3, O4), the words of the spec's tables (O5), the reset pin (O7), and the operations and
words that hold (O11, O35). -/

namespace Sys2Proof

/-! ### DBOP and PCOP words (rules R103, R104) -/

theorem decodeDbop_dbopWord (l : Line) (op : BitVec 2) (b : Bool) :
    decodeDbop l (dbopWord op b) =
      if op = 0 then .dbHold l b else if op = 1 then .dbSample l b else if op = 2 then .dbInit l b
      else .dbReserved l b := by
  have fields : ∀ op b, (dbopWord op b).extractLsb' 1 2 = op ∧ (dbopWord op b).getLsbD 0 = b := by decide
  obtain ⟨hop, hb⟩ := fields op b
  simp only [decodeDbop, hop, hb]

theorem dbopWord_of_fields (w : BitVec 3) : dbopWord (w.extractLsb' 1 2) (w.getLsbD 0) = w := by
  revert w
  decide

theorem encode_decodeDbop (l : Line) (w : BitVec 3) : encode (decodeDbop l w) = .dbop l w := by
  have ops : ∀ op : BitVec 2, op = 0 ∨ op = 1 ∨ op = 2 ∨ op = 3 := by decide
  rw [← dbopWord_of_fields w, decodeDbop_dbopWord]
  obtain h | h | h | h := ops (w.extractLsb' 1 2) <;> (rw [h]; rfl)

theorem decodePcop_pcopWord (op : BitVec 3) (b : Bool) :
    decodePcop (pcopWord op b) =
      if op = 0 then .pcHold b else if op = 1 then .pcAssert b else if op = 2 then .pcStart b
      else if op = 3 then .pcEtick b else if op = 4 then .pcStep b else if op = 5 then .pcResolve b
      else if op = 6 then .pcStop b else .pcReserved b := by
  have fields : ∀ op b, (pcopWord op b).extractLsb' 1 3 = op ∧ (pcopWord op b).getLsbD 0 = b := by decide
  obtain ⟨hop, hb⟩ := fields op b
  simp only [decodePcop, hop, hb]

theorem pcopWord_of_fields (w : BitVec 4) : pcopWord (w.extractLsb' 1 3) (w.getLsbD 0) = w := by
  revert w
  decide

theorem encode_decodePcop (w : BitVec 4) : encode (decodePcop w) = .pcop w := by
  have ops : ∀ op : BitVec 3, op = 0 ∨ op = 1 ∨ op = 2 ∨ op = 3 ∨ op = 4 ∨ op = 5 ∨ op = 6 ∨ op = 7 := by decide
  rw [← pcopWord_of_fields w, decodePcop_pcopWord]
  obtain h | h | h | h | h | h | h | h := ops (w.extractLsb' 1 3) <;> (rw [h]; rfl)

/-! ### FSMEV words (rule R105) -/

/-- A port of 5 bits: the table of rule R105, value by value. -/
theorem encode_decodeFsmev (w : BitVec 5) : encode (decodeFsmev w) = .fsmev w := by
  revert w
  decide

/-! ### ACT words (rule R106) -/

theorem actWord_of_kind {w : BitVec 26} {k : BitVec 2} (h : w.extractLsb' 24 2 = k) :
    actWord k (w.extractLsb' 19 5) (w.extractLsb' 3 16) (w.extractLsb' 0 3) = w := by
  rw [← h, actWord_of_fields]

/-- An `ACT` word is made of its kind and the 24 bits below it. -/
theorem actRest_of_kind {w : BitVec 26} {k : BitVec 2} (h : w.extractLsb' 24 2 = k) :
    (k ++ w.extractLsb' 0 24 : BitVec 26) = w := by
  subst h
  apply BitVec.eq_of_getLsbD_eq
  intro i hi
  rw [getLsbD_actRest]
  simp only [BitVec.getLsbD_extractLsb']
  split
  · simp [*]
  · simp [show i - 24 < 2 by omega, show 24 + (i - 24) = i by omega]

theorem encode_of_decodeAct {w : BitVec 26} {i : Instr} (h : decodeAct w = .ok i) : encode i = .act w := by
  have last : ∀ k : BitVec 2, k ≠ 0 → k ≠ 1 → k ≠ 2 → k = 3 := by decide
  simp only [decodeAct] at h
  split_ifs at h with k0 zeros k1 noSlot k2 onlySlot
  all_goals cases h
  · obtain ⟨hc, hm, hs⟩ := zeros
    have word := actWord_of_kind k0
    rw [hc, hm, hs] at word
    exact congrArg PortWord.act word
  · have word := actWord_of_kind k1
    rw [noSlot] at word
    exact congrArg PortWord.act word
  · obtain ⟨hc, hm⟩ := onlySlot
    have word := actWord_of_kind k2
    rw [hc, hm] at word
    exact congrArg PortWord.act word
  · exact congrArg PortWord.act (actRest_of_kind (last _ k0 k1 k2))

/-! ### CMD words (rules R94, R95, R97) -/

theorem cmdWord_of_op {w : BitVec 24} {op : BitVec 3} (h : w.extractLsb' 21 3 = op) :
    cmdWord op (w.extractLsb' 0 21) = w := by
  rw [← h, cmdWord_of_fields]

theorem cmdWord3_of_op {w : BitVec 24} {op : BitVec 3} (h : w.extractLsb' 21 3 = op) (clear : w.extractLsb' 3 18 = 0) :
    cmdWord3 op (w.extractLsb' 0 3) = w := by
  rw [← h, cmdWord3_of_fields w clear]

/-- The encoding's data bus is the word's for `ST_WRITE` and idle for every other command. -/
theorem encode_of_decodeCmd {w : BitVec 24} {wd : BitVec busW} {i : Instr} (h : decodeCmd w wd = .ok i) :
    ∃ wd', encode i = .cmd w wd' ∧ ∀ slot data, i = .stWrite slot data → wd' = wd := by
  have last : ∀ op : BitVec 3, op ≠ 1 → op ≠ 3 → op ≠ 6 → op ≠ 7 → op ≠ 0 → op ≠ 2 → op ≠ 4 → op = 5 := by
    bv_omega
  have bare {op : BitVec 3} (hop : w.extractLsb' 21 3 = op) (clear : w.extractLsb' 0 21 = 0) : cmdWord op 0 = w := by
    rw [← clear, cmdWord_of_op hop]
  have idle {c : BitVec 24} (hc : c = w) : PortWord.cmd c 0 = .cmd w 0 := by rw [hc]
  simp only [decodeCmd] at h
  split_ifs at h with o1 o3 clear o6 clear o7 clear clear o0 o2 o4
  all_goals cases h
  · have word := cmdWord_of_op o1
    rw [← toneBits_of_fields] at word
    exact ⟨0, idle word, nofun⟩
  · exact ⟨0, idle (cmdWord3_of_op o3 clear), nofun⟩
  · exact ⟨0, idle (cmdWord3_of_op o6 clear), nofun⟩
  · refine ⟨wd, ?_, fun _ _ _ => rfl⟩
    rw [encode, cmdWord3_of_op o7 clear, busOfCells_cellsOfBus]
  · exact ⟨0, idle (bare o0 clear), nofun⟩
  · exact ⟨0, idle (bare o2 clear), nofun⟩
  · exact ⟨0, idle (bare o4 clear), nofun⟩
  · exact ⟨0, idle (bare (last _ o1 o3 o6 o7 o0 o2 o4) clear), nofun⟩

/-- Settles O2, port by port: a word is made of the fields its decoder reads, and a field it does not read is 0. -/
theorem encodeOfDecode : Obligations.EncodeOfDecode :=
  ⟨encode_decodeDbop, encode_decodePcop, encode_decodeFsmev, fun _ _ => encode_of_decodeAct,
    fun _ _ _ => encode_of_decodeCmd⟩

/-! ### Every encoding decodes to its instruction (rules R91 to R106) -/

theorem cmdWord3_op (op low : BitVec 3) : (cmdWord3 op low).extractLsb' 21 3 = op := (cmdWord3_fields op low).1

theorem cmdWord3_low (op low : BitVec 3) : (cmdWord3 op low).extractLsb' 0 3 = low := (cmdWord3_fields op low).2.1

theorem cmdWord3_clear (op low : BitVec 3) : (cmdWord3 op low).extractLsb' 3 18 = 0 := (cmdWord3_fields op low).2.2

/-- Settles O1, over the 42 rows: the decoder's equation at the fields the encoder wrote. -/
theorem decodeOfEncode : Obligations.DecodeOfEncode := by
  intro i
  cases i with
  | nop d p | tick d p => cases d <;> cases p <;> rfl
  | dbHold l b | dbSample l b | dbInit l b | dbReserved l b => simp [encode, decode, decodeDbop_dbopWord]
  | pcHold b | pcAssert b | pcStart b | pcEtick b | pcStep b | pcResolve b | pcStop b | pcReserved b =>
    simp [encode, decode, decodePcop_pcopWord]
  | digit0to7 x | digit8to9 x | fsmevReserved12to15 x | fsmevReserved20to23 x | fsmevReserved24to31 x =>
    revert x
    decide
  | actTone _ _ | actDialout _ =>
    simp [encode, decode, decodeAct, actWord_kind, actWord_code, actWord_ms, actWord_slot, Except.map]
  | actReserved rest => simp [encode, decode, decodeAct, actRest_kind, actRest_rest, Except.map]
  | tone code ms => simp [encode, decode, decodeCmd, cmdWord_op, cmdWord_code, cmdWord_ms, Except.map]
  | arm low | stRead low => simp [encode, decode, decodeCmd, cmdWord3_op, cmdWord3_low, cmdWord3_clear, Except.map]
  | stWrite slot data =>
    simp [encode, decode, decodeCmd, cmdWord3_op, cmdWord3_low, cmdWord3_clear, cellsOfBus_busOfCells, Except.map]
  | _ => rfl

end Sys2Proof

namespace Sys2Proof.Machine

/-! ### The events of an input vector (rules R92, R289, R290) -/

/-- A vector with no strobe. -/
theorem vector_idle_iff (v : BitVec 7) : v &&& 0x7C = 0 ↔ v.getLsbD 6 = false ∧ v.getLsbD 5 = false ∧
    v.getLsbD 4 = false ∧ v.getLsbD 3 = false ∧ v.getLsbD 2 = false := by
  revert v
  decide

theorem eventsOf_idle {v : BitVec 7} (h : v &&& 0x7C = 0) : eventsOf v = [.nop (v.getLsbD 0) (v.getLsbD 1)] :=
  if_pos h

theorem eventsOf_strobed {v : BitVec 7} (h : ¬ v &&& 0x7C = 0) : eventsOf v =
    (if v.getLsbD 6 then [.irqw] else []) ++ (if v.getLsbD 5 && !v.getLsbD 6 then [.irql] else []) ++
    (if v.getLsbD 4 then [.tdone] else []) ++ (if v.getLsbD 3 then [.etick] else []) ++
    (if v.getLsbD 2 then [.tick (v.getLsbD 0) (v.getLsbD 1)] else []) :=
  if_neg h

/-- Which instructions a vector selects; without a strobe all bits but the two raw levels are 0. -/
theorem mem_eventsOf (v : BitVec 7) (i : Instr) : i ∈ eventsOf v ↔
    v.getLsbD 6 = true ∧ i = .irqw ∨ (v.getLsbD 5 = true ∧ v.getLsbD 6 = false) ∧ i = .irql ∨
    v.getLsbD 4 = true ∧ i = .tdone ∨ v.getLsbD 3 = true ∧ i = .etick ∨
    v.getLsbD 2 = true ∧ i = .tick (v.getLsbD 0) (v.getLsbD 1) ∨
    v &&& 0x7C = 0 ∧ i = .nop (v.getLsbD 0) (v.getLsbD 1) := by
  by_cases h : v &&& 0x7C = 0
  · obtain ⟨h6, h5, h4, h3, h2⟩ := (vector_idle_iff v).mp h
    rw [eventsOf_idle h, eq_true h, h6, h5, h4, h3, h2]
    simp
  · rw [eventsOf_strobed h, eq_false h]
    simp

theorem ite_singleton_sublist (c : Prop) [Decidable c] (i : Instr) : (if c then [i] else []).Sublist [i] := by
  split
  · exact List.Sublist.refl _
  · exact List.nil_sublist _

theorem eventsOf_sublist (v : BitVec 7) : (eventsOf v).Sublist
    [.irqw, .irql, .tdone, .etick, .tick (v.getLsbD 0) (v.getLsbD 1), .nop (v.getLsbD 0) (v.getLsbD 1)] := by
  by_cases h : v &&& 0x7C = 0
  · rw [eventsOf_idle h]
    exact List.sublist_append_right [Instr.irqw, .irql, .tdone, .etick, .tick _ _] _
  · rw [eventsOf_strobed h]
    refine List.Sublist.trans ?_ (List.sublist_append_left [Instr.irqw, .irql, .tdone, .etick, .tick _ _] [.nop _ _])
    exact ((((ite_singleton_sublist _ _).append (ite_singleton_sublist _ _)).append (ite_singleton_sublist _ _)).append
      (ite_singleton_sublist _ _)).append (ite_singleton_sublist _ _)

/-- The masks and matches of rule R92 as strobe bits. -/
theorem vector_matches (v : BitVec 7) :
    (v &&& 0x40 = 0x40 ↔ v.getLsbD 6 = true) ∧
    (v &&& 0x60 = 0x20 ↔ v.getLsbD 5 = true ∧ v.getLsbD 6 = false) ∧
    (v &&& 0x10 = 0x10 ↔ v.getLsbD 4 = true) ∧
    (v &&& 0x08 = 0x08 ↔ v.getLsbD 3 = true) ∧
    (v &&& 0x04 = 0x04 ↔ v.getLsbD 2 = true) := by
  revert v
  decide

/-- Settles O3: membership by `mem_eventsOf` and the strobe bits of the masks, the order by `eventsOf_sublist`. -/
theorem vectorSelectsEvents : Obligations.VectorSelectsEvents := by
  intro v
  obtain ⟨irqw, irql, tdone, etick, tick⟩ := vector_matches v
  refine ⟨eventsOf v, rfl, ?_, ?_, ?_, ?_, fun d p => ?_, fun d p => ?_, eventsOf_sublist v⟩
  · rw [mem_eventsOf, irqw]
    simp
  · rw [mem_eventsOf, irql]
    simp
  · rw [mem_eventsOf, tdone]
    simp
  · rw [mem_eventsOf, etick]
    simp
  · rw [mem_eventsOf, tick]
    simp
  · simp [mem_eventsOf]

/-! ### Trace lines (rules R92, R110) -/

/-- A line's vector: the strobes it names, and the raw levels of its `TICK`, 0 without one. -/
theorem lineWord_bits (l : Strobes) : ∃ v, lineWord l = .pins false v ∧ v.getLsbD 6 = l.irqw ∧ v.getLsbD 5 = l.irql ∧
    v.getLsbD 4 = l.tdone ∧ v.getLsbD 3 = l.etick ∧ v.getLsbD 2 = l.tick.isSome ∧
    v.getLsbD 0 = (l.tick.getD (false, false)).1 ∧ v.getLsbD 1 = (l.tick.getD (false, false)).2 := by
  obtain ⟨irqw, irql, tdone, etick, tick⟩ := l
  refine ⟨_, rfl, ?_⟩
  cases tick with
  | none =>
    revert irqw irql tdone etick
    decide
  | some raw =>
    obtain ⟨d, p⟩ := raw
    revert irqw irql tdone etick d p
    decide

theorem strobes_eq_none_iff (l : Strobes) : l = Strobes.none ↔
    l.irqw = false ∧ l.irql = false ∧ l.tdone = false ∧ l.etick = false ∧ l.tick = none := by
  obtain ⟨irqw, irql, tdone, etick, tick⟩ := l
  simp [Strobes.none]

/-- Settles O4: a line's strobes are the bits of its vector, so a line that names nothing is the vector with no strobe. -/
theorem traceLineDecodes : Obligations.TraceLineDecodes := by
  intro l
  obtain ⟨v, word, irqw, irql, tdone, etick, tick, d, p⟩ := lineWord_bits l
  have idle : v &&& 0x7C = 0 ↔ l = Strobes.none := by
    rw [vector_idle_iff, strobes_eq_none_iff, irqw, irql, tdone, etick, tick, Option.isSome_eq_false_iff,
      Option.isNone_iff_eq_none]
  rw [word]
  refine congrArg Except.ok ?_
  by_cases h : l = Strobes.none
  · rw [if_pos h, eventsOf_idle (idle.mpr h), d, p, h]
    rfl
  · rw [if_neg h, eventsOf_strobed (mt idle.mp h), irqw, irql, tdone, etick, tick, d, p]
    congr 1
    cases l.tick <;> rfl

/-- Settles O5: each of the ten words by running the decoder. -/
theorem specWordsDecode : Obligations.SpecWordsDecode :=
  ⟨rfl, rfl, rfl, rfl, rfl, rfl, rfl, rfl, rfl, rfl⟩

/-! ### The reset pin, and what holds (rules R93, R103 to R106, R133, R161, R246; log entry 10) -/

/-- Settles O7: with the reset pin set the word decodes to `RESET` alone, whatever the vector. -/
theorem resetPinIgnoresVector : Obligations.ResetPinIgnoresVector := by
  intro s v hv
  obtain ⟨runsOne, -⟩ := stepRunsDecoded { s with input := .pins true v :: s.input } (.pins true v) s.input hv rfl
  exact runsOne .reset rfl

/-- Settles O11: each operation's meaning is the state itself, or the state with its idle wire driven. -/
theorem holdsChangeNothing : Obligations.HoldsChangeNothing :=
  fun _ => ⟨fun _ _ => rfl, fun _ _ => ⟨rfl, rfl⟩, fun _ => ⟨rfl, rfl⟩, fun _ => rfl, fun _ => rfl, fun _ => rfl, rfl⟩

/-- A class that rule R96 reserves. -/
theorem exec_arm_of_five_le (s : State) {cls : BitVec 3} (h : 5 ≤ cls.toNat) : exec (.arm cls) s = .next s := by
  have reserved : ¬ cls ≤ 4 := fun named => absurd (BitVec.le_def.mp named) (Nat.not_le.mpr h)
  exact congrArg Host.Outcome.next (if_neg reserved)

/-- Settles O35: the reserved kind by the definition of `ACT_RESERVED`, the reserved classes by `exec_arm_of_five_le`. -/
theorem reservedWordsIgnored : Obligations.ReservedWordsIgnored :=
  fun s => ⟨fun _ => rfl, fun _ => exec_arm_of_five_le s⟩

end Sys2Proof.Machine

/-! PROOFS of the statements of 40_debounce_filter.md: what the operations of one line do (O12, O13), when a sample flips
the level (O14), and which samples of a run report a change (O15 to O18). -/

namespace Sys2Proof.Machine

/-! ### One operation (rules R131, R132) -/

theorem rises_iff (h : BitVec 8) (level : Bool) : rises h level = true ↔ h &&& 0xC7 = 0x07 ∧ level = false := by
  simp [rises, debMask, debRise]

theorem falls_iff (h : BitVec 8) (level : Bool) : falls h level = true ↔ h &&& 0xC7 = 0xC0 ∧ level = true := by
  simp [falls, debMask, debFall]

/-- The history has eight bits, so rule R132's `& 0xFF` cuts nothing more. -/
theorem shiftIn_eq_masked (h : BitVec 8) (r : Bool) :
    shiftIn h r = ((h <<< 1) ||| (if r then 1 else 0)) &&& 0xFF :=
  (BitVec.and_allOnes (x := shiftIn h r)).symm

/-- Settles O12: the model's three branches are those of rule R132, condition by condition. -/
theorem sampleShiftsAndFlips : Obligations.SampleShiftsAndFlips := by
  intro l r s
  refine congrArg (fun x => Host.Outcome.next (s.setDb l x)) ?_
  simp only [dbSample, rises_iff, falls_iff, shiftIn_eq_masked]

/-- Settles O13: `DB_INIT` by its definition, with the history of eight equal samples written out. -/
theorem initFillsHistory : Obligations.InitFillsHistory := by
  intro l b s
  rw [← histOf_eq]
  rfl

/-! ### One sample, bit by bit (rules R21, R132) -/

theorem dbSample_hist_zero (r : Bool) (x : DbLine) : (dbSample r x).hist.getLsbD 0 = r := by
  rw [(dbSample_cases r x).1]
  cases r <;> simp [shiftIn, histW]

theorem dbSample_hist_succ (r : Bool) (x : DbLine) {i : Nat} (hi : i + 1 < 8) :
    (dbSample r x).hist.getLsbD (i + 1) = x.hist.getLsbD i := by
  rw [(dbSample_cases r x).1]
  cases r <;> simp [shiftIn, histW, hi, BitVec.getLsbD_eq_getElem (Nat.lt_of_succ_lt hi)]

/-- Rule R132 in words: a sample is reported exactly if it and the two before it are of the other level while the samples
six and seven before it are of the present one. -/
theorem dbSample_changed_iff (r : Bool) (x : DbLine) : (dbSample r x).changed = true ↔
    x.level = !r ∧ x.hist.getLsbD 0 = r ∧ x.hist.getLsbD 1 = r ∧ x.hist.getLsbD 5 = !r ∧ x.hist.getLsbD 6 = !r := by
  obtain ⟨h, level, c⟩ := x
  have : ∀ (r level : Bool) (h : BitVec 8), (dbSample r ⟨h, level, false⟩).changed = true ↔
      level = !r ∧ h.getLsbD 0 = r ∧ h.getLsbD 1 = r ∧ h.getLsbD 5 = !r ∧ h.getLsbD 6 = !r := by decide
  exact this r level h

theorem dbSample_level_of_changed {r : Bool} {x : DbLine} (h : (dbSample r x).changed = true) :
    (dbSample r x).level = r := by
  obtain ⟨-, ⟨-, flipped, -⟩ | ⟨quiet, -⟩⟩ := dbSample_cases r x
  · exact flipped
  · simp [h] at quiet

theorem dbSample_level_of_quiet {r : Bool} {x : DbLine} (h : (dbSample r x).changed = false) :
    (dbSample r x).level = x.level := by
  obtain ⟨-, ⟨reported, -⟩ | ⟨-, kept⟩⟩ := dbSample_cases r x
  · simp [h] at reported
  · exact kept

/-- Settles O14: a flip is reported, and `dbSample_changed_iff` says which samples a report needs. -/
theorem flipNeedsThreeSamples : Obligations.FlipNeedsThreeSamples := by
  intro l r s t ht flip
  obtain rfl : s.setDb l (dbSample r (s.db l)) = t := Host.Outcome.next.inj ht
  rw [State.setDb_db] at flip ⊢
  have reported : (dbSample r (s.db l)).changed = true := by
    by_contra quiet
    exact flip (dbSample_level_of_quiet (Bool.eq_false_iff.mpr quiet))
  obtain ⟨-, newest, second, -, -⟩ := (dbSample_changed_iff r (s.db l)).mp reported
  rw [dbSample_level_of_changed reported]
  exact ⟨rfl, newest, second⟩

/-! ### Runs of samples at one line -/

/-- The filter after the samples of a list. -/
def DbLine.after (x : DbLine) (rs : List Bool) : DbLine := rs.foldl (fun y r => dbSample r y) x

/-- The flags that the samples of a list give. -/
def DbLine.flags : DbLine → List Bool → List Bool
  | _, [] => []
  | x, r :: rs => (dbSample r x).changed :: (dbSample r x).flags rs

@[simp] theorem DbLine.after_nil (x : DbLine) : x.after [] = x := rfl

@[simp] theorem DbLine.after_cons (x : DbLine) (r : Bool) (rs : List Bool) :
    x.after (r :: rs) = (dbSample r x).after rs := rfl

@[simp] theorem DbLine.flags_nil (x : DbLine) : x.flags [] = [] := rfl

@[simp] theorem DbLine.flags_cons (x : DbLine) (r : Bool) (rs : List Bool) :
    x.flags (r :: rs) = (dbSample r x).changed :: (dbSample r x).flags rs := rfl

theorem DbLine.after_append (x : DbLine) (rs qs : List Bool) : x.after (rs ++ qs) = (x.after rs).after qs :=
  List.foldl_append

theorem DbLine.flags_append (x : DbLine) (rs qs : List Bool) :
    x.flags (rs ++ qs) = x.flags rs ++ (x.after rs).flags qs := by
  induction rs generalizing x with
  | nil => rfl
  | cons r rs ih => simp [ih]

theorem State.setDb_self (s : State) (l : Line) : s.setDb l (s.db l) = s := by cases l <;> rfl

/-- The reports of a run at a line are the flags of its filter alone (rule R130). -/
theorem reports_eq_flags (l : Line) (rs : List Bool) (s : State) : reports l rs s = (s.db l).flags rs := by
  induction rs generalizing s with
  | nil => rfl
  | cons r rs ih =>
    calc reports l (r :: rs) s
        = ((sampleLine l r s).db l).changed :: reports l rs (sampleLine l r s) := rfl
      _ = (s.db l).flags (r :: rs) := by rw [ih, sampleLine, State.setDb_db, DbLine.flags_cons]

/-- A run of samples changes nothing but the filter of its line. -/
theorem execAll_samples (l : Line) (rs : List Bool) (s : State) :
    execAll (samples l rs) s = .next (s.setDb l ((s.db l).after rs)) := by
  induction rs generalizing s with
  | nil => exact congrArg Host.Outcome.next (State.setDb_self s l).symm
  | cons r rs ih =>
    calc execAll (samples l (r :: rs)) s
        = execAll (samples l rs) (sampleLine l r s) := rfl
      _ = .next (s.setDb l ((s.db l).after (r :: rs))) := by
        rw [ih, sampleLine, State.setDb_db, State.setDb_setDb, DbLine.after_cons]

/-- The level a run of samples ends at, read off the filter. -/
theorem execAll_samples_level (l : Line) (rs : List Bool) (s : State) {v : Bool}
    (h : ((s.db l).after rs).level = v) : ∃ t, execAll (samples l rs) s = .next t ∧ (t.db l).level = v :=
  ⟨_, execAll_samples l rs s, by rw [State.setDb_db, h]⟩

/-! ### Equal samples (rules R136, R137) -/

/-- A property that keeps each sample `r` from being reported, and is kept by it, keeps a whole run of `r` quiet. -/
theorem DbLine.quiet_replicate {P : DbLine → Prop} {r : Bool}
    (quiet : ∀ x, P x → (dbSample r x).changed = false ∧ P (dbSample r x)) (n : Nat) {x : DbLine} (hx : P x) :
    x.flags (List.replicate n r) = List.replicate n false ∧ P (x.after (List.replicate n r)) := by
  induction n generalizing x with
  | zero => exact ⟨rfl, hx⟩
  | succ n ih =>
    obtain ⟨unreported, kept⟩ := quiet x hx
    obtain ⟨flags, after⟩ := ih kept
    exact ⟨by simp [List.replicate_succ, unreported, flags], after⟩

/-- Rule R136 at one filter. -/
theorem DbLine.steady_replicate (n : Nat) {r : Bool} {x : DbLine} (h : x.level = r) :
    x.flags (List.replicate n r) = List.replicate n false ∧ (x.after (List.replicate n r)).level = r := by
  refine DbLine.quiet_replicate (P := fun y => y.level = r) (fun y hy => ?_) n h
  subst hy
  rw [dbSample_same]
  exact ⟨rfl, rfl⟩

/-- Settles O16: a sample at the level is never reported and keeps it, so a run of them is quiet. -/
theorem steadyLineReportsNothing : Obligations.SteadyLineReportsNothing := by
  intro n l s
  obtain ⟨flags, level⟩ := DbLine.steady_replicate n (x := s.db l) rfl
  exact ⟨(reports_eq_flags l _ s).trans flags, execAll_samples_level l _ s level⟩

/-- The histories that zeros make of `0xF5`, which is what the samples 0, 1, 0, 1 make of eight ones (rule R137). -/
def lockedHistories : List (BitVec 8) := [0xF5, 0xEA, 0xD4, 0xA8, 0x50, 0xA0, 0x40, 0x80, 0x00]

/-- The line is locked out: high, with a history from which zeros alone never show the falling pattern. -/
def DbLine.lockedOut (x : DbLine) : Prop := x.hist ∈ lockedHistories ∧ x.level = true

theorem DbLine.lockedOut_step (x : DbLine) (h : x.lockedOut) :
    (dbSample false x).changed = false ∧ (dbSample false x).lockedOut := by
  obtain ⟨hist, level⟩ := h
  have shifted : ∀ h ∈ lockedHistories, shiftIn h false ∈ lockedHistories := by decide
  have noFall : ∀ h ∈ lockedHistories, ¬ (h.getLsbD 0 = false ∧ h.getLsbD 1 = false ∧ h.getLsbD 5 = true ∧
      h.getLsbD 6 = true) := by decide
  have quiet : (dbSample false x).changed = false := by
    rw [Bool.eq_false_iff]
    intro reported
    obtain ⟨-, pattern⟩ := (dbSample_changed_iff false x).mp reported
    exact noFall x.hist hist pattern
  refine ⟨quiet, ?_, (dbSample_level_of_quiet quiet).trans level⟩
  rw [(dbSample_cases false x).1]
  exact shifted x.hist hist

/-- The shortest bounce that locks the line out. -/
theorem DbLine.bounce_locksOut {x : DbLine} (hist : x.hist = 0xFF) (level : x.level = true) :
    x.flags [false, true, false, true] = List.replicate 4 false ∧ (x.after [false, true, false, true]).lockedOut := by
  obtain ⟨h, lv, c⟩ := x
  obtain rfl : h = 0xFF := hist
  obtain rfl : lv = true := level
  have evaluated : ∀ c, let x : DbLine := ⟨0xFF, true, c⟩
      x.flags [false, true, false, true] = List.replicate 4 false ∧
        x.after [false, true, false, true] = ⟨0xF5, true, false⟩ := by decide
  obtain ⟨flags, after⟩ := evaluated c
  rw [after]
  exact ⟨flags, List.mem_cons_self, rfl⟩

/-- Settles O17: the bounce locks the line out without a report, and every later zero finds it locked out and keeps it
so. -/
theorem lockedOutLineNeverFalls : Obligations.LockedOutLineNeverFalls := by
  intro n l s hist level
  obtain ⟨bounce, locked⟩ := DbLine.bounce_locksOut hist level
  obtain ⟨zeros, -, stillHigh⟩ := DbLine.quiet_replicate DbLine.lockedOut_step n locked
  rw [← DbLine.after_append] at stillHigh
  refine ⟨?_, execAll_samples_level l _ s stillHigh⟩
  rw [reports_eq_flags, DbLine.flags_append, bounce, zeros, List.replicate_append_replicate]

/-! ### Clean steps and waves (rule R135) -/

/-- The five newest samples are of the level: what an edge needs to be reported at its third sample. -/
def DbLine.settled (x : DbLine) : Prop := ∀ i < 5, x.hist.getLsbD i = x.level

theorem DbLine.settled_of_histOf {x : DbLine} (h : x.hist = if x.level then 0xFF else 0x00) : x.settled := by
  intro i hi
  rw [h]
  cases x.level
  · simp
  · revert i
    decide

/-- Rule R135 (a), from five samples of the old level: the third sample of the step finds the pattern. -/
theorem DbLine.settled_step {x : DbLine} (h : x.settled) :
    x.flags (List.replicate 3 (!x.level)) = [false, false, true] ∧
      (x.after (List.replicate 3 (!x.level))).level = !x.level := by
  generalize hr : (!x.level) = r
  have level : x.level = !r := by rw [← hr, Bool.not_not]
  let y := dbSample r x
  let z := dbSample r y
  have old : ∀ i < 5, x.hist.getLsbD i = !r := fun i hi => (h i hi).trans level
  have first : y.changed = false := by
    rw [Bool.eq_false_iff, ne_eq, dbSample_changed_iff, old 0 (by decide)]
    simp
  have second : z.changed = false := by
    rw [Bool.eq_false_iff, ne_eq, dbSample_changed_iff, dbSample_hist_succ r x (by decide), old 0 (by decide)]
    simp
  have third : (dbSample r z).changed = true := by
    refine (dbSample_changed_iff r z).mpr ⟨?_, dbSample_hist_zero r y, ?_, ?_, ?_⟩
    · rw [dbSample_level_of_quiet second, dbSample_level_of_quiet first, level]
    · rw [dbSample_hist_succ r y (by decide), dbSample_hist_zero]
    · rw [dbSample_hist_succ r y (by decide), dbSample_hist_succ r x (by decide), old 3 (by decide)]
    · rw [dbSample_hist_succ r y (by decide), dbSample_hist_succ r x (by decide), old 4 (by decide)]
  refine ⟨?_, dbSample_level_of_changed third⟩
  calc x.flags (List.replicate 3 r)
      = [y.changed, z.changed, (dbSample r z).changed] := rfl
    _ = [false, false, true] := by rw [first, second, third]

/-- Settles O15: eight equal samples are more than the five that `DbLine.settled_step` needs. -/
theorem cleanStepAtThirdSample : Obligations.CleanStepAtThirdSample := by
  intro l s hist
  obtain ⟨flags, level⟩ := DbLine.settled_step (DbLine.settled_of_histOf hist)
  exact ⟨(reports_eq_flags l _ s).trans flags, execAll_samples_level l _ s level⟩

/-- The newest samples of the history are those of the run just taken (rule R21). -/
theorem DbLine.after_replicate_hist (x : DbLine) (r : Bool) {n i : Nat} (hi : i < n) (h8 : i < 8) :
    (x.after (List.replicate n r)).hist.getLsbD i = r := by
  induction n generalizing i with
  | zero => exact absurd hi (Nat.not_lt_zero i)
  | succ n ih =>
    rw [List.replicate_succ', DbLine.after_append, DbLine.after_cons, DbLine.after_nil]
    cases i with
    | zero => exact dbSample_hist_zero r _
    | succ i => rw [dbSample_hist_succ r _ h8, ih (Nat.lt_of_succ_lt_succ hi) (Nat.lt_of_succ_lt h8)]

/-- One run of a wave: reported at its third sample alone, and long enough for the next edge. -/
theorem DbLine.settled_run {x : DbLine} (h : x.settled) {n : Nat} (hn : 5 ≤ n) :
    x.flags (List.replicate n (!x.level)) = [false, false, true] ++ List.replicate (n - 3) false ∧
      (x.after (List.replicate n (!x.level))).level = (!x.level) ∧
      (x.after (List.replicate n (!x.level))).settled := by
  obtain ⟨step, flipped⟩ := DbLine.settled_step h
  obtain ⟨rest, level⟩ := DbLine.steady_replicate (n - 3) flipped
  have cut : List.replicate n (!x.level) = List.replicate 3 (!x.level) ++ List.replicate (n - 3) (!x.level) := by
    rw [List.replicate_append_replicate, Nat.add_sub_cancel' (by omega)]
  rw [← DbLine.after_append, ← cut] at level
  refine ⟨?_, level, fun i hi => ?_⟩
  · rw [cut, DbLine.flags_append, step, rest]
  · rw [level, DbLine.after_replicate_hist x _ (by omega) (by omega)]

/-- Rule R135 (c) at one filter. -/
theorem DbLine.settled_wave {ns : List Nat} (hns : ∀ n ∈ ns, 5 ≤ n) {x : DbLine} (h : x.settled) :
    x.flags (wave (!x.level) ns) = ns.flatMap fun n => [false, false, true] ++ List.replicate (n - 3) false := by
  induction ns generalizing x with
  | nil => rfl
  | cons n ns ih =>
    obtain ⟨run, level, settled⟩ := DbLine.settled_run h (hns n List.mem_cons_self)
    have later := ih (fun m hm => hns m (List.mem_cons_of_mem n hm)) settled
    rw [level] at later
    rw [wave, DbLine.flags_append, run, later, List.flatMap_cons]

/-- Settles O18: eight equal samples settle the line, and each run of the wave settles it for the next. -/
theorem waveEdgesAtThirdSample : Obligations.WaveEdgesAtThirdSample :=
  fun _ l s hns hist =>
    (reports_eq_flags l _ s).trans (DbLine.settled_wave (x := s.db l) hns (DbLine.settled_of_histOf hist))

end Sys2Proof.Machine

/-! PROOFS of the statements of 41_pulse_counter.md: what the operations of the counter do (O19 to O22), and that no
escalation follows a pulse (O23). -/

namespace Sys2Proof.Machine

/-! ### The operations at the port (rules R151 to R153, R157 to R160) -/

/-- Settles O19: each of the three operations is one record update, the one its rule states. -/
theorem counterPortRules : Obligations.CounterPortRules :=
  fun _ _ _ => ⟨rfl, rfl, rfl⟩

/-- Rule R153, with the saturation as a minimum. -/
theorem pcEtick_sfCnt (x : PulseCounter) :
    (pcEtick x).sfCnt = if x.sfRun then BitVec.ofNat 16 (min (x.sfCnt.toNat + 1) 65535) else x.sfCnt := by
  unfold pcEtick
  split
  · exact satSucc_eq 16 x.sfCnt
  · rfl

/-- Settles O20: at the port and as an event the tick is `PC_ETICK`, which changes the hold counter alone. -/
theorem elapsedTickCounts : Obligations.ElapsedTickCounts := by
  intro s b
  rw [← pcEtick_sfCnt, ← pcEtick_eq]
  exact ⟨rfl, rfl⟩

theorem tallyValid_eq (t : BitVec 4) : tallyValid t = decide (1 ≤ t.toNat ∧ t.toNat ≤ 10) := by
  simp [tallyValid, tallyMin, tallyMax, BitVec.le_def]

/-- Rules R158, R159: a tally below ten stands for itself, or for its complement to ten on a reversed dial. -/
theorem digitOfTally_of_le_nine (reversed : Bool) {t : BitVec 4} (h : t.toNat ≤ 9) :
    digitOfTally reversed t = if reversed then BitVec.ofNat 4 (10 - t.toNat) else t := by
  have notTen : t ≠ tallyMax := by
    rintro rfl
    exact absurd h (by decide)
  have complement : 10 - t = BitVec.ofNat 4 (10 - t.toNat) := by bv_omega
  rw [digitOfTally, if_neg notTen, complement]

/-- Ten pulses are the digit 0 on either dial. -/
theorem digitOfTally_ten (reversed : Bool) {t : BitVec 4} (h : t.toNat = 10) : digitOfTally reversed t = 0 :=
  if_pos (BitVec.eq_of_toNat_eq h)

/-- Rules R157 to R159: the tally in its three ranges, below ten, ten, and no digit. -/
theorem pcResolve_eq (p : Params) (x : PulseCounter) : pcResolve p x =
    { x with
      digitValid := decide (1 ≤ x.tally.toNat ∧ x.tally.toNat ≤ 10)
      digit :=
        if 1 ≤ x.tally.toNat ∧ x.tally.toNat ≤ 9 then
          if p.reversed then BitVec.ofNat 4 (10 - x.tally.toNat) else x.tally
        else 0 } := by
  rw [pcResolve, tallyValid_eq]
  by_cases valid : 1 ≤ x.tally.toNat ∧ x.tally.toNat ≤ 10
  · rw [decide_eq_true valid, if_pos rfl]
    by_cases below : x.tally.toNat ≤ 9
    · have oneToNine : 1 ≤ x.tally.toNat ∧ x.tally.toNat ≤ 9 := ⟨valid.1, below⟩
      rw [digitOfTally_of_le_nine _ below, if_pos oneToNine]
    · rw [digitOfTally_ten _ (by omega), if_neg fun h => below h.2]
  · rw [decide_eq_false valid, if_neg Bool.false_ne_true, if_neg (by omega)]

/-- Settles O21: at the port as in the counter, the tally's ranges are those of `pcResolve_eq`. -/
theorem resolveMapsTally : Obligations.ResolveMapsTally := by
  intro s b
  rw [← pcResolve_eq]
  rfl

/-! ### `PC_STEP` (rule R154) -/

/-- The tests of rule R154 in their order. -/
theorem pcStep_eq (p : Params) (dl pl ch : Bool) (x : PulseCounter) : pcStep p dl pl ch x =
    if dl = true then (pcResolve p (pcStop x), .outEnd)
    else if ch = true ∧ pl = p.pulseAssert then
      ({ x with tally := satSucc 4 x.tally, pulseSeen := true, escArmed := false }, .outPulse)
    else if x.escArmed = true ∧ p.holdTicks ≤ x.sfCnt.toNat then
      ({ x with esc := x.esc + 1, sfCnt := 0, escArmed := decide (x.esc + 1 ≠ escLevels) }, .outEsc)
    else (x, .outNone) := by
  rcases pcStep_cases p dl pl ch x with
    ⟨rfl, ended⟩ | ⟨rfl, edge, asserted, pulse⟩ | ⟨rfl, quiet, armed, held, escalated⟩ | ⟨rfl, quiet, below, nothing⟩
  · rw [ended, if_pos rfl]
  · rw [pulse, if_neg Bool.false_ne_true, if_pos ⟨edge, asserted⟩]
  · rw [escalated, if_neg Bool.false_ne_true, if_neg quiet, if_pos ⟨armed, held⟩]
  · rw [nothing, if_neg Bool.false_ne_true, if_neg quiet, if_neg below]

/-- `PC_STEP` at the port writes the registers and drives the wire that the counter's step answers. -/
theorem exec_pcStep_of_pcStep (b : Bool) {s : State} {x : PulseCounter} {o : PcOut}
    (h : pcStep s.par s.dbDial.level s.dbPulse.level s.dbPulse.changed s.pc = (x, o)) :
    exec (.pcStep b) s = .next { s with pc := x, pcOut := o } := by
  calc exec (.pcStep b) s = .next (stepCounter s) := rfl
    _ = .next { s with pc := x, pcOut := o } := by rw [stepCounter_eq, h]

/-- Settles O22: each clause is the branch of `pcStep_eq` that its premises select. -/
theorem stepTakesFirstBranch : Obligations.StepTakesFirstBranch := by
  intro s b
  refine ⟨fun idle => ⟨_, rfl, ?_⟩, fun active edge asserted => ?_, fun active quiet armed held => ?_,
    fun active quiet below => ?_⟩
  · refine exec_pcStep_of_pcStep b ?_
    rw [pcStep_eq, if_pos idle]
    rfl
  · refine exec_pcStep_of_pcStep b ?_
    rw [pcStep_eq, active, if_neg Bool.false_ne_true, if_pos ⟨edge, asserted⟩, satSucc_eq]
    rfl
  · refine exec_pcStep_of_pcStep b ?_
    rw [pcStep_eq, active, if_neg Bool.false_ne_true, if_neg quiet, if_pos ⟨armed, held⟩]
    rfl
  · refine exec_pcStep_of_pcStep b ?_
    rw [pcStep_eq, active, if_neg Bool.false_ne_true, if_neg quiet]
    exact if_neg below

/-- A counted pulse disarms escalation and leaves its level (rules R155, R163). -/
theorem pcStep_of_outPulse {p : Params} {dl pl ch : Bool} {x : PulseCounter} (h : (pcStep p dl pl ch x).2 = .outPulse) :
    (pcStep p dl pl ch x).1.escArmed = false ∧ (pcStep p dl pl ch x).1.esc = x.esc ∧
      (pcStep p dl pl ch x).1.pulseSeen = true := by
  rcases pcStep_cases p dl pl ch x with ⟨-, e⟩ | ⟨-, -, -, e⟩ | ⟨-, -, -, -, e⟩ | ⟨-, -, -, e⟩
  · rw [e] at h
    cases h
  · rw [e]
    exact ⟨rfl, rfl, rfl⟩
  · rw [e] at h
    cases h
  · rw [e] at h
    cases h

/-- With escalation disarmed no branch arms it, and the third branch is not taken (rule R163). -/
theorem pcStep_of_disarmed (p : Params) (dl pl ch : Bool) {x : PulseCounter} (h : x.escArmed = false) :
    (pcStep p dl pl ch x).1.escArmed = false ∧ (pcStep p dl pl ch x).1.esc = x.esc ∧
      (pcStep p dl pl ch x).2 ≠ .outEsc := by
  rcases pcStep_cases p dl pl ch x with ⟨-, e⟩ | ⟨-, -, -, e⟩ | ⟨-, -, armed, -, -⟩ | ⟨-, -, -, e⟩
  · rw [e, pcResolve_frame]
    exact ⟨rfl, rfl, nofun⟩
  · rw [e]
    exact ⟨rfl, rfl, nofun⟩
  · rw [h] at armed
    cases armed
  · rw [e]
    exact ⟨h, rfl, nofun⟩

/-! ### What the scheduler leaves of the counter (rules R240 to R243) -/

/-- The counter's registers and its wire `pc_out`. -/
def State.counter (s : State) : PulseCounter × PcOut := (s.pc, s.pcOut)

@[simp] theorem stepCounter_counter (s : State) : (stepCounter s).counter =
    pcStep s.par s.dbDial.level s.dbPulse.level s.dbPulse.changed s.pc := rfl

@[simp] theorem digitEvent_counter (d : Code) (s : State) : (digitEvent d s).counter = s.counter := rfl

@[simp] theorem loopTop_counter (s : State) : (loopTop s).counter = s.counter := by
  rw [loopTop_eq]; rfl

theorem playNext_counter (s : State) : (playNext s).counter = s.counter := by
  rcases playNext_cases s with ⟨j, hj, -, played⟩ | ended | ⟨-, absent⟩
  · rw [played]; rfl
  · rw [ended, loopTop_counter]; rfl
  · rw [absent]; rfl

@[simp] theorem doAct_counter (a : Action) (s : State) : (doAct a s).counter = s.counter := by
  cases a with
  | none => exact loopTop_counter s
  | tone code ms => rfl
  | dialout slot =>
    have loaded : (sdLoad slot s).counter = s.counter := by rw [sdLoad_eq]; rfl
    exact (playNext_counter _).trans loaded

/-- The state in which the counter steps in a sample tick of the gesture: both lines sampled (rule R240). -/
def State.sampled (d p : Bool) (s : State) : State := sampleLine .pulse p (sampleLine .dial d s)

/-- Whatever the scheduler does after the counter's step, the counter keeps what the step left. -/
theorem tickGesture_counter (d p : Bool) (s : State) :
    (tickGesture d p s).counter = (stepCounter (s.sampled d p)).counter := by
  rcases tickGesture_cases d p s with ⟨-, -, digit⟩ | ⟨-, -, discarded⟩ | ⟨-, escalated⟩ | ⟨-, goesOn⟩
  · rw [digit, doAct_counter, digitEvent_counter]; rfl
  · rw [discarded, loopTop_counter]; rfl
  · rw [escalated]; rfl
  · rw [goesOn]; rfl

/-! ### No escalation after a pulse (rules R163, R243) -/

/-- The tone of an escalation is waited for, the gesture to go on after it (rules R37, R243). -/
def Scheduler.inEscalationTone (c : Scheduler) : Prop := c.phase = .tone ∧ c.retGesture = true

theorem inGesture_iff (c : Scheduler) : inGesture c = true ↔ c.phase = .gesture ∨ c.inEscalationTone := by
  simp [inGesture, Scheduler.inEscalationTone]

theorem not_inEscalationTone_of_phase {c : Scheduler} (h : c.phase ≠ .tone) : ¬ c.inEscalationTone :=
  fun tone => h tone.1

theorem loopTop_not_inEscalationTone (s : State) : ¬ (loopTop s).sch.inEscalationTone := by
  rw [loopTop_eq]
  exact not_inEscalationTone_of_phase nofun

theorem not_inEscalationTone_of_gesture {c : Scheduler} (h : c.phase = .gesture) : ¬ c.inEscalationTone :=
  not_inEscalationTone_of_phase (by rw [h]; nofun)

/-- The tone of an action ends the iteration, and no other action waits in the tone phase (rule R242). -/
theorem doAct_not_inEscalationTone (a : Action) (s : State) : ¬ (doAct a s).sch.inEscalationTone := by
  rcases doAct_cases a s with ⟨-, e⟩ | ⟨code, ms, -, e⟩ | ⟨slot, -, j, hj, -, e⟩ | ⟨slot, -, e⟩
  · rw [e]
    exact loopTop_not_inEscalationTone s
  · rw [e]
    exact fun returns => Bool.false_ne_true returns.2
  · rw [e]
    exact not_inEscalationTone_of_phase nofun
  · rw [e]
    exact loopTop_not_inEscalationTone _

/-- What rule R163 says of a step from `s`, where escalation is disarmed, to `t`. -/
structure StaysDisarmed (s t : State) : Prop where
  disarmed : t.pc.escArmed = false
  level : t.pc.esc = s.pc.esc
  noEscalation : s.sch.phase = .gesture → ¬ t.sch.inEscalationTone

/-- A step that keeps the counter's two escalation registers escalates only by a change of phase. -/
theorem StaysDisarmed.of_phase {s t : State} (h : s.pc.escArmed = false) (armed : t.pc.escArmed = s.pc.escArmed)
    (level : t.pc.esc = s.pc.esc) (phase : t.sch.phase = s.sch.phase) : StaysDisarmed s t :=
  ⟨armed.trans h, level, fun gesture => not_inEscalationTone_of_gesture (phase.trans gesture)⟩

/-- Only the counter's outcome `OUT_ESC` makes a sample tick of the gesture escalate (rule R240). -/
theorem tickGesture_not_inEscalationTone {d p : Bool} {s : State} (hp : s.sch.phase = .gesture)
    (h : (stepCounter (s.sampled d p)).pcOut ≠ .outEsc) : ¬ (tickGesture d p s).sch.inEscalationTone := by
  rcases tickGesture_cases d p s with ⟨-, -, digit⟩ | ⟨-, -, discarded⟩ | ⟨hout, -⟩ | ⟨-, goesOn⟩
  · rw [digit]
    exact doAct_not_inEscalationTone _ _
  · rw [discarded]
    exact loopTop_not_inEscalationTone _
  · exact absurd hout h
  · rw [goesOn]
    exact not_inEscalationTone_of_gesture hp

theorem tickGesture_staysDisarmed (d p : Bool) {s : State} (hp : s.sch.phase = .gesture) (h : s.pc.escArmed = false) :
    StaysDisarmed s (tickGesture d p s) := by
  let u := s.sampled d p
  obtain ⟨disarmed, level, noEsc⟩ := pcStep_of_disarmed u.par u.dbDial.level u.dbPulse.level u.dbPulse.changed
    (x := u.pc) h
  have pc : (tickGesture d p s).pc = (stepCounter u).pc := congrArg Prod.fst (tickGesture_counter d p s)
  refine ⟨?_, ?_, fun _ => tickGesture_not_inEscalationTone hp noEsc⟩
  · rw [pc]
    exact disarmed
  · rw [pc]
    exact level

theorem execIrqw_staysDisarmed {s : State} (hg : inGesture s.sch = true) (h : s.pc.escArmed = false) :
    ∃ t, execIrqw s = .next t ∧ StaysDisarmed s t := by
  unfold execIrqw
  rcases (inGesture_iff s.sch).mp hg with phase | ⟨phase, -⟩
  all_goals
    rw [phase]
    exact ⟨_, rfl, .of_phase h rfl rfl rfl⟩

theorem execIrql_staysDisarmed {s : State} (hg : inGesture s.sch = true) (h : s.pc.escArmed = false) :
    ∃ t, execIrql s = .next t ∧ StaysDisarmed s t := by
  unfold execIrql
  rcases (inGesture_iff s.sch).mp hg with phase | ⟨phase, -⟩
  all_goals
    rw [phase]
    exact ⟨_, rfl, .of_phase h rfl rfl rfl⟩

/-- The end of an escalation's tone goes back to the gesture phase. -/
theorem execTdone_staysDisarmed {s : State} (hg : inGesture s.sch = true) (h : s.pc.escArmed = false) :
    ∃ t, execTdone s = .next t ∧ StaysDisarmed s t := by
  unfold execTdone
  rcases (inGesture_iff s.sch).mp hg with gesture | ⟨tone, returns⟩
  · rw [gesture]
    exact ⟨_, rfl, .of_phase h rfl rfl rfl⟩
  · rw [tone, returns]
    exact ⟨_, rfl, h, rfl, fun _ => not_inEscalationTone_of_gesture rfl⟩

theorem execEtick_staysDisarmed {s : State} (h : s.pc.escArmed = false) :
    ∃ t, execEtick s = .next t ∧ StaysDisarmed s t := by
  refine ⟨_, rfl, ?_⟩
  rw [pcEtick_eq]
  exact .of_phase h rfl rfl rfl

theorem execTick_staysDisarmed (d p : Bool) {s : State} (hg : inGesture s.sch = true) (h : s.pc.escArmed = false) :
    ∃ t, execTick d p s = .next t ∧ StaysDisarmed s t := by
  unfold execTick
  rcases (inGesture_iff s.sch).mp hg with gesture | ⟨tone, -⟩
  · rw [gesture]
    exact ⟨_, rfl, tickGesture_staysDisarmed d p gesture h⟩
  · rw [tone]
    exact ⟨_, rfl, .of_phase h rfl rfl rfl⟩

theorem exec_staysDisarmed {i : Instr} {s : State} (hi : isEvent i = true) (hr : i ≠ .reset)
    (hg : inGesture s.sch = true) (h : s.pc.escArmed = false) : ∃ t, exec i s = .next t ∧ StaysDisarmed s t := by
  cases i with
  | reset => exact absurd rfl hr
  | nop d p => exact ⟨s, rfl, .of_phase h rfl rfl rfl⟩
  | irqw => exact execIrqw_staysDisarmed hg h
  | irql => exact execIrql_staysDisarmed hg h
  | tdone => exact execTdone_staysDisarmed hg h
  | etick => exact execEtick_staysDisarmed h
  | tick d p => exact execTick_staysDisarmed d p hg h
  | _ => cases hi

theorem stepCounter_of_outPulse {s : State} (h : (stepCounter s).pcOut = .outPulse) :
    (stepCounter s).pc.escArmed = false ∧ (stepCounter s).pc.esc = s.pc.esc ∧ (stepCounter s).pc.pulseSeen = true :=
  pcStep_of_outPulse h

/-- After a counted pulse the gesture goes on: the tick was two samples and the counter's step. -/
theorem tickGesture_of_outPulse {d p : Bool} {s : State} (h : (tickGesture d p s).pcOut = .outPulse) :
    tickGesture d p s = stepCounter (s.sampled d p) := by
  have wire : (tickGesture d p s).pcOut = (stepCounter (s.sampled d p)).pcOut :=
    congrArg Prod.snd (tickGesture_counter d p s)
  have counted : (stepCounter (s.sampled d p)).pcOut = .outPulse := wire.symm.trans h
  rcases tickGesture_cases d p s with ⟨ended, -⟩ | ⟨ended, -⟩ | ⟨escalated, -⟩ | ⟨-, goesOn⟩
  · cases ended.symm.trans counted
  · cases ended.symm.trans counted
  · cases escalated.symm.trans counted
  · exact goesOn

theorem exec_tick_of_gesture (d p : Bool) {s : State} (h : s.sch.phase = .gesture) :
    exec (.tick d p) s = .next (tickGesture d p s) := by
  simp [exec, execTick, h]

/-- Settles O23: the events of the gesture by `exec_staysDisarmed`, the counted pulse, at the port and in the tick, by
`stepCounter_of_outPulse`. -/
theorem noEscalationAfterPulse : Obligations.NoEscalationAfterPulse := by
  refine ⟨fun i s t hi hr hg h ht => ?_, fun s t b ht pulse => ?_, fun s t d p hp ht pulse => ?_⟩
  · obtain ⟨disarmed, level, noEscalation⟩ := exec_next_elim (exec_staysDisarmed hi hr hg h) ht
    exact ⟨disarmed, level, noEscalation⟩
  · obtain rfl : stepCounter s = t := Host.Outcome.next.inj ht
    exact stepCounter_of_outPulse pulse
  · rw [exec_tick_of_gesture d p hp] at ht
    obtain rfl : tickGesture d p s = t := Host.Outcome.next.inj ht
    have goesOn := tickGesture_of_outPulse pulse
    rw [goesOn] at pulse ⊢
    obtain ⟨disarmed, level, seen⟩ := stepCounter_of_outPulse pulse
    exact ⟨disarmed, level, seen, rfl⟩

end Sys2Proof.Machine

/-! PROOFS of the statements of 42_dial_command_fsm.md: what a digit and an escalation do in each menu state (O24 to O29),
the commit of PendingNumber (O30), and the dial-out of a slot from its first code to its last (O38, O39, O41). -/

namespace Sys2Proof.Machine

/-! ### The digit events (rules R105, R181, R185) -/

/-- Each of the four instructions with a digit-code is that digit at `dial_command_fsm`. -/
theorem exec_of_digitCodeOf {i : Instr} {d : Code} (h : digitCodeOf i = some d) (s : State) :
    exec i s = .next (digitEvent d s) := by
  cases i with
  | digit0to7 low =>
    obtain rfl : BitVec.ofNat 5 low.toNat = d := Option.some.inj h
    rw [BitVec.ofNat_toNat]
    rfl
  | digit8to9 d0 =>
    obtain rfl : BitVec.ofNat 5 (8 + d0.toNat) = d := Option.some.inj h
    cases d0 <;> rfl
  | star | pound =>
    obtain rfl := Option.some.inj h
    rfl
  | _ => cases h

/-- A digit's effect on a state, from its effect on the registers of `dial_command_fsm`. -/
theorem exec_of_fsmDigit {i : Instr} {d : Code} {s : State} {g : DialFsm} {a : Action} (hi : digitCodeOf i = some d)
    (h : fsmDigit s.par d s.fsm = (g, a)) : exec i s = .next { s with fsm := g, act := a } := by
  rw [exec_of_digitCodeOf hi, digitEvent_eq, h]

/-! ### The row of each menu state (rules R181, R185) -/

/-- The dispatch on an effective menu state that is known. -/
theorem fsmDigit_of_menuEff (p : Params) (d : Code) {f : DialFsm} {m : BitVec 3} (h : menuEff f = m) :
    fsmDigit p d f =
      if m = mDial then digitInDial p d f
      else if m = mL1 then digitInL1 p d f
      else if m = mL2 then digitInL2 p d f
      else if m = mL3 then digitInL3 f
      else digitInProg p d f := by
  subst h
  rfl

/-- A menu value that is a state is the effective one. -/
theorem menuEff_of_menu {f : DialFsm} {m : BitVec 3} (h : f.menu = m) (hm : m ≤ 4) : menuEff f = m := by
  subst h
  exact if_pos hm

theorem menuEff_eq_dial {f : DialFsm} (h : f.menu = 0 ∨ 5 ≤ f.menu) : menuEff f = mDial := by
  rcases h with zero | unrecognised
  · exact menuEff_of_menu zero (by decide)
  · exact (menuEff_eq f).trans (if_pos unrecognised)

theorem fsmDigit_dial (p : Params) (d : Code) {f : DialFsm} (h : f.menu = 0 ∨ 5 ≤ f.menu) :
    fsmDigit p d f = digitInDial p d f :=
  fsmDigit_of_menuEff p d (menuEff_eq_dial h)

theorem fsmDigit_specialOne (p : Params) (d : Code) {f : DialFsm} (h : f.menu = 1) :
    fsmDigit p d f = digitInL1 p d f :=
  fsmDigit_of_menuEff p d (menuEff_of_menu h (by decide))

theorem fsmDigit_specialTwo (p : Params) (d : Code) {f : DialFsm} (h : f.menu = 2) :
    fsmDigit p d f = digitInL2 p d f :=
  fsmDigit_of_menuEff p d (menuEff_of_menu h (by decide))

theorem fsmDigit_specialThree (p : Params) (d : Code) {f : DialFsm} (h : f.menu = 3) :
    fsmDigit p d f = digitInL3 f :=
  fsmDigit_of_menuEff p d (menuEff_of_menu h (by decide))

theorem fsmDigit_program (p : Params) (d : Code) {f : DialFsm} (h : f.menu = 4) :
    fsmDigit p d f = digitInProg p d f :=
  fsmDigit_of_menuEff p d (menuEff_of_menu h (by decide))

/-! ### Dial and ProgramSpeedDial: room and overflow (rules R182, R183, R186, R194, R195) -/

theorem hasRoom_iff (f : DialFsm) : hasRoom f = true ↔ f.pendLen < 30 := by
  rw [hasRoom_eq, decide_eq_true_iff]

/-- Rule R186, register by register. -/
theorem digitInDial_eq (p : Params) (d : Code) (f : DialFsm) : digitInDial p d f =
    ({ f with
        pend := if f.pendLen < 30 then f.pend.setIfInBounds f.pendLen.toNat d else slotOff
        pendLen := if f.pendLen < 30 then f.pendLen + 1 else 0
        target := 0
        menu := 0 }, .tone d p.dtmfMs) := by
  by_cases room : f.pendLen < 30
  · simp only [digitInDial, if_pos ((hasRoom_iff f).mpr room), if_pos room]
    rfl
  · simp only [digitInDial, if_neg (mt (hasRoom_iff f).mp room), if_neg room]
    rfl

theorem digitInProg_of_room (p : Params) (d : Code) {f : DialFsm} (room : f.pendLen < 30) : digitInProg p d f =
    ({ f with pend := f.pend.setIfInBounds f.pendLen.toNat d, pendLen := f.pendLen + 1 },
      .tone codeBeepLow p.beepLowMs) :=
  if_pos ((hasRoom_iff f).mpr room)

theorem digitInProg_of_full (p : Params) (d : Code) {f : DialFsm} (full : ¬ f.pendLen < 30) : digitInProg p d f =
    ({ f with pend := slotOff, pendLen := 0, menu := 0 }, .tone codeTuneDesc p.tuneMs) :=
  if_neg (mt (hasRoom_iff f).mp full)

/-- Settles O24: every menu value but 1 to 4 takes the row of Dial. (`digitInDial` is the model's own name.) -/
theorem digitInDial_obligation : Obligations.DigitInDial := by
  intro i d s hi hm
  exact exec_of_fsmDigit hi ((fsmDigit_dial s.par d hm).trans (digitInDial_eq s.par d s.fsm))

/-- Settles O28, by whether there is room. -/
theorem digitInProgram : Obligations.DigitInProgram := by
  intro i d s hi hm
  have row := fsmDigit_program s.par d hm
  split
  · rename_i room
    exact exec_of_fsmDigit hi (row.trans (digitInProg_of_room s.par d room))
  · rename_i full
    exact exec_of_fsmDigit hi (row.trans (digitInProg_of_full s.par d full))

/-! ### The special menus (rules R187 to R193) -/

/-- The slot of a digit (rules R62, R184), in the words of rules R188, R189 and R191. -/
theorem slotOf_eq_some {d : Code} {slot : BitVec 3}
    (h : d = 3 ∧ slot = 0 ∨ 4 ≤ d.toNat ∧ d.toNat ≤ 9 ∧ slot.toNat = d.toNat - 3 ∨ d = 0 ∧ slot = 7) :
    slotOf d = some slot := by
  revert d slot
  decide

/-- Rules R188, R189: a digit with a slot dials it. -/
theorem digitInL1_of_slot (p : Params) (f : DialFsm) {d : Code} {slot : BitVec 3} (h : slotOf d = some slot) :
    digitInL1 p d f = ({ f with menu := 0 }, .dialout slot) := by
  have notStar : d ≠ posStar := by rintro rfl; cases h
  have notPound : d ≠ posPound := by rintro rfl; cases h
  by_cases redial : d = posRedial
  · subst redial
    obtain rfl : 0 = slot := Option.some.inj h
    rfl
  · simp only [digitInL1, if_neg notStar, if_neg notPound, if_neg redial, h]
    rfl

/-- Rule R190: ★ and # typed by themselves have no slot. -/
theorem digitInL1_of_none (p : Params) (f : DialFsm) {d : Code} (h : d = 10 ∨ d = 11) :
    digitInL1 p d f = ({ f with menu := 0 }, .none) := by
  rcases h with rfl | rfl <;> rfl

/-- Rule R187: the recursion lands in the row of Dial. -/
theorem exec_specialOne_recursion {i j : Instr} {d c : Code} {s : State} (hi : digitCodeOf i = some d)
    (hj : digitCodeOf j = some c) (hm : s.fsm.menu = 1)
    (h : digitInL1 s.par d s.fsm = digitInDial s.par c { s.fsm with menu := mDial }) :
    exec i s = exec j { s with fsm := { s.fsm with menu := 0 } } := by
  rw [exec_of_fsmDigit hi ((fsmDigit_specialOne s.par d hm).trans h),
    exec_of_fsmDigit hj (fsmDigit_dial _ c (.inl rfl))]
  rfl

/-- Settles O25: the recursion for 1 and 2, a dial-out for a digit with a slot, nothing for ★ and #. -/
theorem digitInSpecialOne : Obligations.DigitInSpecialOne := by
  intro i d s hi hm
  have row := fsmDigit_specialOne s.par d hm
  have dials : ∀ slot, slotOf d = some slot →
      exec i s = .next { s with fsm := { s.fsm with menu := 0 }, act := .dialout slot } :=
    fun slot h => exec_of_fsmDigit hi (row.trans (digitInL1_of_slot s.par s.fsm h))
  refine ⟨?star, ?pound, fun h => dials 0 (slotOf_eq_some (.inl ⟨h, rfl⟩)), ?speedDial,
    fun h => dials 7 (slotOf_eq_some (.inr (.inr ⟨h, rfl⟩))),
    fun h => exec_of_fsmDigit hi (row.trans (digitInL1_of_none s.par s.fsm h))⟩
  case star =>
    rintro rfl
    exact exec_specialOne_recursion hi rfl hm rfl
  case pound =>
    rintro rfl
    exact exec_specialOne_recursion hi rfl hm rfl
  case speedDial =>
    rintro ⟨low, high⟩
    refine dials _ (slotOf_eq_some (.inr (.inl ⟨low, high, ?_⟩)))
    rw [BitVec.toNat_ofNat]
    omega

/-- Rule R191: a digit with a slot chooses it for the number to come. -/
theorem digitInL2_of_slot (p : Params) (f : DialFsm) {d : Code} {slot : BitVec 3} (h : slotOf d = some slot) :
    digitInL2 p d f = ({ f with pend := slotOff, pendLen := 0, target := slot, menu := 4 }, .none) := by
  simp only [digitInL2, h]
  rfl

/-- Rule R192: a digit without a slot is an error. -/
theorem digitInL2_of_none (p : Params) (f : DialFsm) {d : Code} (h : slotOf d = none) :
    digitInL2 p d f = ({ f with menu := 0 }, .tone codeTuneDesc p.tuneMs) := by
  simp only [digitInL2, h]
  rfl

/-- Settles O26, by whether the digit has a slot. -/
theorem digitInSpecialTwo : Obligations.DigitInSpecialTwo := by
  intro i d s hi hm
  have row := fsmDigit_specialTwo s.par d hm
  refine ⟨fun slot h => ?_, fun h => ?_⟩
  · exact exec_of_fsmDigit hi (row.trans (digitInL2_of_slot s.par s.fsm (slotOf_eq_some h)))
  · have noSlot : slotOf d = none := by rcases h with rfl | rfl | rfl | rfl <;> rfl
    exact exec_of_fsmDigit hi (row.trans (digitInL2_of_none s.par s.fsm noSlot))

/-- Settles O27. -/
theorem digitInSpecialThree : Obligations.DigitInSpecialThree :=
  fun _ d s hi hm => exec_of_fsmDigit hi (fsmDigit_specialThree s.par d hm)

/-- Settles O29: `escEvent` writes the menu without reading it, and the rows of rule R196 are its two tables by `rfl`. -/
theorem escalationSetsMenu : Obligations.EscalationSetsMenu :=
  fun _ => ⟨rfl, rfl, rfl⟩

/-! ### The commit (rules R197, R198) -/

/-- A byte of a store in canonical form is a 5-bit code. -/
theorem Memory.read_code {m : Memory} (hm : m.wf) (a : Nat) : ((m.read a).setWidth 5).setWidth 8 = m.read a := by
  have low : ∀ b : BitVec 8, b.toNat < 2 ^ codeW → (b.setWidth 5).setWidth 8 = b := by decide
  refine low _ ?_
  obtain ⟨-, codes⟩ := hm
  induction m with
  | nil => exact (by decide : Memory.unlisted.toNat < 2 ^ codeW)
  | cons c m ih =>
    obtain ⟨k, v⟩ := c
    simp only [Memory.read]
    split
    · obtain ⟨-, -, code, -⟩ := codes (k, v) List.mem_cons_self
      exact code
    · exact ih fun c hc => codes c (List.mem_cons_of_mem _ hc)

/-- The cells of a slot, as whole bytes of a store in canonical form. -/
theorem Memory.read_of_readSlot {m : Memory} (hm : m.wf) {slot : BitVec 3} {data : Slot} (h : m.readSlot slot = data)
    (i : Fin slotCap) : m.read (cellAddr slot i) = data[i].setWidth 8 := by
  rw [← (readSlot_eq_iff m slot data).mp h i, Memory.read_code hm]

/-- A commit leaves every byte outside its target's cells alone. -/
theorem timeoutEvent_read_other (s : State) {a : Nat}
    (h : s.fsm.target = 0 ∨ ∀ i : Fin slotCap, a ≠ cellAddr s.fsm.target i) :
    (timeoutEvent s).ps.read a = s.ps.read a := by
  by_cases redial : s.fsm.target = 0
  · rw [timeoutEvent_redial s redial]
  · by_cases holds : s.ps.readSlot s.fsm.target = s.fsm.pend
    · rw [timeoutEvent_equal s redial holds]
    · rw [timeoutEvent_differ s redial holds]
      exact Memory.read_writeSlot_other _ _ _ a fun i hi => h.resolve_left redial ⟨i, hi⟩

/-- Settles O30: the registers by `timeoutEvent_cases`, the commands of each of the three commits, and the store by the
target's cells and the bytes outside them. -/
theorem timeoutCommitsPendingNumber : Obligations.TimeoutCommitsPendingNumber := by
  intro s hwf
  have held := readSlot_eq_iff s.ps s.fsm.target s.fsm.pend
  obtain ⟨new, ps, committed, -⟩ := timeoutEvent_cases s
  refine ⟨timeoutEvent s, rfl, by rw [committed]; rfl, by rw [committed]; rfl, fun redial => ?outRedial,
    fun slot cells => ?outHeld, fun slot cells => ?outDiffers, fun slot => ?written,
    fun _ other => timeoutEvent_read_other s other, by rw [committed]; exact ⟨rfl, rfl, rfl, rfl, rfl, rfl, rfl, rfl⟩⟩
  case outRedial => rw [timeoutEvent_redial s redial]
  case outHeld => rw [timeoutEvent_equal s slot (held.mpr cells)]
  case outDiffers =>
    rw [timeoutEvent_differ s slot (mt held.mp cells)]
    exact List.append_assoc ..
  case written => exact Memory.read_of_readSlot (timeoutEvent_wf hwf) (timeoutEvent_readSlot hwf.1 slot)

/-! ### The dial-out (rules R199 to R201, R242, R244) -/

/-- `ACT_DIALOUT` loads its slot and plays on from cell 0. -/
theorem exec_actDialout (slot : BitVec 3) (s : State) : exec (.actDialout slot) s = .next (playNext
    { s with fsm := { s.fsm with pb := slotContent s slot, playIdx := 0 }
             out := s.out ++ (if slot = 0 then [] else [Command.stRead slot]) }) := by
  rw [← sdLoad_eq]
  rfl

/-- Settles O38: the search starts at cell 0 of the loaded slot. -/
theorem dialoutPlaysFirstCode : Obligations.DialoutPlaysFirstCode := by
  intro s slot x reads
  have start : (0 : BitVec 5).toNat ≤ slotCap := Nat.zero_le _
  rw [exec_actDialout]
  refine ⟨fun j dialable first => ?_, fun silent => ?_⟩
  · rw [playNext_found _ j j.isLt]
    · rfl
    · exact playScan_found x _ _ start j.isLt (Nat.zero_le _) dialable fun k hk _ hlt => first ⟨k, hk⟩ hlt
  · rw [playNext_none, loopTop_eq]
    · rfl
    · exact playScan_none x _ start fun k hk _ => silent ⟨k, hk⟩

/-- The next play index stays in its five bits. -/
theorem playIdx_succ_toNat {i : BitVec 5} (h : i.toNat < slotCap) : (i + 1).toNat = i.toNat + 1 := by
  simp only [slotCap] at h
  bv_omega

/-- Settles O41: the search starts at the cell after the one played. -/
theorem gapDonePlaysNextCode : Obligations.GapDonePlaysNextCode := by
  intro s hp hi
  have next : (s.fsm.playIdx + 1).toNat = s.fsm.playIdx.toNat + 1 := playIdx_succ_toNat hi
  have start : (s.fsm.playIdx + 1).toNat ≤ slotCap := next ▸ hi
  rw [exec_tdone_of_playGap hp]
  refine ⟨fun j later dialable first => ?_, fun silent => ?_⟩
  · rw [playNext_found _ j j.isLt]
    · rfl
    · exact playScan_found _ _ _ start j.isLt (next ▸ later) dialable fun k hk hge hlt =>
        first ⟨k, hk⟩ (by rw [next] at hge; exact hge) hlt
  · rw [playNext_none]
    · rfl
    · exact playScan_none _ _ start fun k hk hge => silent ⟨k, hk⟩ (by rw [next] at hge; exact hge)

/-- The codes a dial-out has still to play from cell `i` on. -/
def dialCodesFrom (x : Slot) (i : Nat) : List Code := (x.toList.drop i).filter fun c => decide (c ≤ codeMaxValid)

theorem dialCodesFrom_zero (x : Slot) : dialCodesFrom x 0 = dialCodes x := rfl

theorem dialCodesFrom_end (x : Slot) : dialCodesFrom x slotCap = [] := by
  rw [dialCodesFrom, List.drop_of_length_le (by simp), List.filter_nil]

theorem drop_toList (x : Slot) {i : Nat} (hi : i < slotCap) : x.toList.drop i = x[i] :: x.toList.drop (i + 1) := by
  rw [List.drop_eq_getElem_cons (by simpa using hi), Vector.getElem_toList]

theorem dialCodesFrom_of_dialable {x : Slot} {i : Nat} (hi : i < slotCap) (h : x[i] ≤ codeMaxValid) :
    dialCodesFrom x i = x[i] :: dialCodesFrom x (i + 1) := by
  rw [dialCodesFrom, drop_toList x hi, List.filter_cons_of_pos (by simpa using h)]
  rfl

theorem dialCodesFrom_of_not_dialable {x : Slot} {i : Nat} (hi : i < slotCap) (h : ¬ x[i] ≤ codeMaxValid) :
    dialCodesFrom x i = dialCodesFrom x (i + 1) := by
  rw [dialCodesFrom, drop_toList x hi, List.filter_cons_of_neg (by simpa using h)]
  rfl

/-- `PLAY_ADVANCE` passes over no dialable code. -/
theorem dialCodesFrom_playScan (x : Slot) (n i : Nat) : dialCodesFrom x (playScan x n i) = dialCodesFrom x i := by
  induction n generalizing i with
  | zero => rfl
  | succ n ih =>
    rw [playScan]
    split
    · rename_i hi
      split
      · rfl
      · rename_i silent
        rw [ih, dialCodesFrom_of_not_dialable hi silent]
    · rfl

/-- With no code left the search runs to the end. -/
theorem playScan_of_nothing_left {x : Slot} {i : Nat} (hi : i ≤ slotCap) (left : dialCodesFrom x i = []) :
    playScan x slotCap i = slotCap := by
  rcases playScan_cases x slotCap i hi (Nat.le_add_left _ _) with ⟨found, -, dialable, -⟩ | ⟨ended, -⟩
  · rw [← dialCodesFrom_playScan x slotCap, dialCodesFrom_of_dialable found dialable] at left
    cases left
  · exact ended

/-- With a code left the search finds it, and the codes after it are left from the next cell on. -/
theorem playScan_of_code_left {x : Slot} {i : Nat} {c : Code} {cs : List Code} (hi : i ≤ slotCap)
    (left : dialCodesFrom x i = c :: cs) :
    ∃ (j : Nat) (hj : j < slotCap), playScan x slotCap i = j ∧ x[j] = c ∧ dialCodesFrom x (j + 1) = cs := by
  rw [← dialCodesFrom_playScan x slotCap] at left
  rcases playScan_cases x slotCap i hi (Nat.le_add_left _ _) with ⟨found, -, dialable, -⟩ | ⟨ended, -⟩
  · rw [dialCodesFrom_of_dialable found dialable] at left
    obtain ⟨code, rest⟩ := List.cons.inj left
    exact ⟨_, found, rfl, code, rest⟩
  · rw [ended, dialCodesFrom_end] at left
    cases left

/-- The commands that play a list of codes, each with the silence after it (rule R201). -/
def playCommands (cs : List Code) : List Command :=
  cs.flatMap fun c => [.tone c dialoutToneMs, .tone codeOff dialoutGapMs]

theorem execAll_cons_next {i : Instr} {s t : State} (is : List Instr) (h : exec i s = .next t) :
    execAll (i :: is) s = execAll is t := by
  rw [execAll_cons, h]

/-- The end of a played tone starts its silence (rule R244). -/
theorem exec_tdone_of_playTone {s : State} (h : s.sch.phase = .playTone) : exec .tdone s = .next
    { s with out := s.out ++ [.tone codeOff dialoutGapMs], sch := { s.sch with phase := .playGap } } := by
  have taken : execTdone s = .next ((issueTone codeOff dialoutGapMs s).setPhase .playGap) := by
    simp only [execTdone, h]
  exact taken

/-- The state in which a play-out has emitted its tones and the loop starts again. -/
def State.played (s : State) (cs : List Code) : State :=
  { s with fsm := { s.fsm with playIdx := 30 }, out := s.out ++ playCommands cs }

/-- The state in which the silence after the code of cell `j` has ended, and the index is on the next cell. -/
def State.playedCell (s : State) (j : Nat) (c : Code) : State :=
  { s with fsm := { s.fsm with playIdx := BitVec.ofNat 5 j + 1 }
           out := s.out ++ [.tone c dialoutToneMs] ++ [.tone codeOff dialoutGapMs]
           sch := { s.sch with phase := .playGap } }

/-- The two `TDONE`s of one code: its tone and its silence end, and the search goes on after it. -/
theorem execAll_tdone_tdone (is : List Instr) {s : State} {j : Nat} (hj : j < slotCap)
    (h : playScan s.fsm.pb slotCap s.fsm.playIdx.toNat = j) :
    execAll (.tdone :: .tdone :: is) (playNext s) = execAll is (playNext (s.playedCell j s.fsm.pb[j])) := by
  rw [playNext_found s j hj h, execAll_cons_next _ (exec_tdone_of_playTone rfl),
    execAll_cons_next _ (exec_tdone_of_playGap rfl)]
  rfl

/-- The index and the phase between two codes leave no trace at the top of the loop. -/
theorem loopTop_played_cons (s : State) (j : Nat) (c : Code) (cs : List Code) :
    loopTop ((s.playedCell j c).played cs) = loopTop (s.played (c :: cs)) := by
  simp [loopTop_eq, State.played, State.playedCell, playCommands, loopTopCommands]

/-- From any index on, two `TDONE`s for each code left play them all and go to the top of the loop. -/
theorem execAll_playNext (cs : List Code) (s : State) (hi : s.fsm.playIdx.toNat ≤ slotCap)
    (left : dialCodesFrom s.fsm.pb s.fsm.playIdx.toNat = cs) :
    execAll (List.replicate (2 * cs.length) .tdone) (playNext s) = .next (loopTop (s.played cs)) := by
  induction cs generalizing s with
  | nil =>
    rw [playNext_none s (playScan_of_nothing_left hi left)]
    simp [execAll, State.played, playCommands]
  | cons c cs ih =>
    obtain ⟨j, hj, scanned, rfl, rest⟩ := playScan_of_code_left hi left
    have index : (BitVec.ofNat 5 j).toNat = j := by
      rw [BitVec.toNat_ofNat, Nat.mod_eq_of_lt (Nat.lt_trans hj (by decide))]
    have next : (BitVec.ofNat 5 j + 1).toNat = j + 1 := by
      rw [playIdx_succ_toNat (index.symm ▸ hj), index]
    calc execAll (List.replicate (2 * (cs.length + 1)) .tdone) (playNext s)
        = execAll (List.replicate (2 * cs.length) .tdone) (playNext (s.playedCell j s.fsm.pb[j])) :=
          execAll_tdone_tdone _ hj scanned
      _ = .next (loopTop ((s.playedCell j s.fsm.pb[j]).played cs)) := ih _ (next.trans_le hj) (next.symm ▸ rest)
      _ = .next (loopTop (s.played (s.fsm.pb[j] :: cs))) := by rw [loopTop_played_cons]

/-- Settles O39: the load, then the play-out of all the slot's codes from cell 0 on. -/
theorem dialoutPlaysEveryCode : Obligations.DialoutPlaysEveryCode := by
  intro s slot x
  have played := execAll_playNext (dialCodes x)
    { s with fsm := { s.fsm with pb := slotContent s slot, playIdx := 0 }
             out := s.out ++ (if slot = 0 then [] else [Command.stRead slot]) } (Nat.zero_le _) (dialCodesFrom_zero x)
  rw [loopTop_eq] at played
  exact ⟨_, (execAll_cons_next _ (exec_actDialout slot s)).trans played, rfl, rfl, rfl, rfl, rfl, rfl, rfl⟩

end Sys2Proof.Machine

/-! PROOFS of the statements of 43_event_scheduler.md: how an action ends the iteration (O36, O37), what the interrupts and
the end of a tone do in each phase (O40, O43 to O45), the sample tick (O47 to O49), and the phase graph (O56). -/

namespace Sys2Proof.Machine

/-! ### The end of an iteration (rules R231, R242) -/

/-- `ACT_NONE` is the top of the loop. -/
theorem exec_actNone (s : State) : exec .actNone s = .next (loopTop s) := exec_toInstr .none s

/-- Settles O36: the two cases of `loopTop_eq`, on whether PendingNumber is empty. -/
theorem noActionSleeps : Obligations.NoActionSleeps := by
  intro s
  rw [exec_actNone, loopTop_eq, loopTopCommands]
  refine ⟨fun pending => ?_, fun empty => ?_⟩
  · rw [if_neg pending, if_neg pending]
    rfl
  · rw [if_pos empty, if_pos empty]

/-- Settles O37: an `ACT_TONE` word is `DO_ACT` of a tone, which is `startTone` without a return. -/
theorem toneActionWaits : Obligations.ToneActionWaits := by
  intro s code ms
  calc exec (.actTone code ms) s
      = .next (startTone code ms false s) := exec_toInstr (.tone code ms) s
    _ = _ := by rw [startTone_eq]

/-! ### The end of a tone (rule R244) -/

theorem exec_tdone_of_escalation {s : State} (h : s.sch.phase = .tone) (returns : s.sch.retGesture = true) :
    exec .tdone s = .next { s with sch := { s.sch with retGesture := false, phase := .gesture } } := by
  simp [exec, execTdone, h, returns, State.setSch]

theorem exec_tdone_of_lastTone {s : State} (h : s.sch.phase = .tone) (last : s.sch.retGesture = false) :
    exec .tdone s = .next (loopTop s) := by
  simp [exec, execTdone, h, last]

/-- No tone is outstanding in these phases, and a `TDONE` is ignored. -/
theorem exec_tdone_of_noTone {s : State} (h : s.sch.phase = .sleep ∨ s.sch.phase = .confirm ∨ s.sch.phase = .gesture) :
    exec .tdone s = .next s := by
  rcases h with h | h | h
  all_goals simp [exec, execTdone, h]

/-- Settles O40: one lemma for each row of rule R244. -/
theorem toneDoneByPhase : Obligations.ToneDoneByPhase := by
  intro s
  refine ⟨exec_tdone_of_escalation, fun tone last => ?_, exec_tdone_of_playTone, exec_tdone_of_noTone⟩
  rw [exec_tdone_of_lastTone tone last, exec_actNone]

/-! ### The interrupts (rules R232 to R236) -/

/-- The state a wake leaves before it takes its path: the watchdog disarmed, the reason read and cleared (rule R234). -/
def State.woken (s : State) : State :=
  { s with sch := { s.sch with wdtArmed := false, wakeTimeout := false }
           out := s.out ++ (if s.sch.wdtArmed then [.disarm] else []) }

theorem woken_of_noReason {s : State} (h : s.sch.wakeTimeout = false) : s.woken =
    { s with sch := { s.sch with wdtArmed := false }
             out := s.out ++ (if s.sch.wdtArmed then [.disarm] else []) } := by
  simp only [State.woken, h]

/-- A sleeping block's `IRQW` latches the reason, and so the wake takes the timeout path. -/
theorem exec_irqw_of_sleep {s : State} (h : s.sch.phase = .sleep) :
    exec .irqw s = .next (timeoutPath s.woken) := by
  have taken : exec .irqw s = .next (wake (s.setSch { s.sch with wakeTimeout := true })) := by
    simp [exec, execIrqw, h]
  rw [taken, wake_eq]
  rfl

theorem exec_irqw_of_awake {s : State} (h : s.sch.phase ≠ .sleep) :
    exec .irqw s = .next { s with sch := { s.sch with wakeTimeout := true } } := by
  change execIrqw s = _
  unfold execIrqw
  cases hp : s.sch.phase with
  | sleep => exact absurd hp h
  | _ => rfl

theorem exec_irql_of_sleep {s : State} (h : s.sch.phase = .sleep) :
    exec .irql s = .next (if s.sch.wakeTimeout then timeoutPath s.woken else linePath s.woken) := by
  have taken : exec .irql s = .next (wake s) := by
    simp [exec, execIrql, h]
  rw [taken, wake_eq]
  rfl

theorem exec_irql_of_awake {s : State} (h : s.sch.phase ≠ .sleep) : exec .irql s = .next s := by
  change execIrql s = _
  unfold execIrql
  cases hp : s.sch.phase with
  | sleep => exact absurd hp h
  | _ => rfl

/-- Rule R131: both registers that `DB_INIT` writes. -/
theorem dbInit_eq (x : DbLine) :
    dbInit x = { hist := if x.level then 0xFF else 0x00, level := x.level, changed := false } := by
  rw [dbInit, histOf_eq]

/-- Settles O43: without a reason latched the wake takes the line path, which re-initialises the two filters. -/
theorem lineWakeStartsConfirm : Obligations.LineWakeStartsConfirm := by
  intro s asleep noReason
  have taken : exec .irql s = .next (linePath s.woken) := by
    rw [exec_irql_of_sleep asleep, if_neg (ne_true_of_eq_false noReason)]
  rw [taken, linePath_eq, dbInit_eq, dbInit_eq, woken_of_noReason noReason]

/-- Settles O44: the timeout path is the `TIMEOUT` event and then the `ACT` word of what it left on the wire. -/
theorem watchdogWakeCommits : Obligations.WatchdogWakeCommits := by
  intro s asleep
  refine ⟨timeoutEvent s.woken, rfl, ?_, _, exec_irqw_of_sleep asleep⟩
  calc exec .irqw s
      = .next (timeoutPath s.woken) := exec_irqw_of_sleep asleep
    _ = .next (doAct (timeoutEvent s.woken).act (timeoutEvent s.woken)) := rfl
    _ = exec (timeoutEvent s.woken).act.toInstr (timeoutEvent s.woken) := (exec_toInstr _ _).symm

/-- Settles O45: `IRQW` and `IRQL` take the wake in the sleep phase alone. -/
theorem interruptsWhileAwake : Obligations.InterruptsWhileAwake :=
  fun _ awake => ⟨exec_irqw_of_awake awake, exec_irql_of_awake awake⟩

/-! ### The sample tick in the confirm phase (rules R237 to R239, R247) -/

theorem exec_tick_of_confirm (d p : Bool) {s : State} (h : s.sch.phase = .confirm) :
    exec (.tick d p) s = .next (tickConfirm d s) := by
  simp [exec, execTick, h]

theorem exec_tick_ignored (d p : Bool) {s : State} (notConfirm : s.sch.phase ≠ .confirm)
    (notGesture : s.sch.phase ≠ .gesture) : exec (.tick d p) s = .next s := by
  change execTick d p s = _
  unfold execTick
  cases hp : s.sch.phase with
  | confirm => exact absurd hp notConfirm
  | gesture => exact absurd hp notGesture
  | _ => rfl

/-- Settles O47: the tick is taken in the confirm and gesture phases alone. -/
theorem tickIgnored : Obligations.TickIgnored :=
  fun _ d p notConfirm notGesture => exec_tick_ignored d p notConfirm notGesture

/-- The confirm counter after one more sample: one further, saturating (rules R164, R237). -/
def State.confirmCount (s : State) : Nat := min (s.sch.cfCnt.toNat + 1) 65535

/-- The state in which a tick of the confirm phase decides: the dial line sampled, the confirm counter one further. -/
def State.confirmSampled (d : Bool) (s : State) : State :=
  { sampleLine .dial d s with sch := { s.sch with cfCnt := BitVec.ofNat 16 s.confirmCount } }

theorem confirmSampled_eq (d : Bool) (s : State) : s.confirmSampled d =
    (sampleLine .dial d s).setSch
      { (sampleLine .dial d s).sch with cfCnt := satSucc 16 (sampleLine .dial d s).sch.cfCnt } := by
  rw [satSucc_eq]
  rfl

theorem confirmSampled_dbDial (d : Bool) (s : State) :
    (s.confirmSampled d).dbDial = (sampleLine .dial d s).dbDial := rfl

/-- The confirm counter of the deciding state, where its count is known. -/
theorem confirmSampled_of_count (d : Bool) {s : State} {n : Nat} (h : s.confirmCount = n) : s.confirmSampled d =
    { sampleLine .dial d s with sch := { s.sch with cfCnt := BitVec.ofNat 16 n } } := by
  rw [State.confirmSampled, h]

theorem confirmSampled_cfCnt (d : Bool) (s : State) : (s.confirmSampled d).sch.cfCnt.toNat = s.confirmCount := by
  have bound : s.confirmCount < 2 ^ 16 := by
    unfold State.confirmCount
    omega
  calc (s.confirmSampled d).sch.cfCnt.toNat
      = s.confirmCount % 2 ^ 16 := BitVec.toNat_ofNat _ _
    _ = s.confirmCount := Nat.mod_eq_of_lt bound

/-- The tests of rules R237 to R239 in their order. -/
theorem tickConfirm_eq (d : Bool) (s : State) : tickConfirm d s =
    let x := (sampleLine .dial d s).dbDial
    let u := s.confirmSampled d
    if x.changed = true then
      if x.level = true then loopTop (u.setPc (pcStop u.pc))
      else (u.setSch { u.sch with cfCnt := 0 }).setPc (pcAssert u.pc)
    else if s.confirmCount = 5000 then
      if x.level = true then loopTop (u.setPc (pcStop u.pc))
      else (u.setPc (pcStart (menuEff u.fsm == mDial) u.pc)).setPhase .gesture
    else u := by
  have outcomes := tickConfirm_cases d s
  simp only [← confirmSampled_eq, confirmSampled_cfCnt, confirmSampled_dbDial] at outcomes
  rcases outcomes with ⟨edge, active, asserted⟩ | ⟨idle, stops, abandoned⟩ | ⟨quiet, elapsed, active, confirmed⟩ |
    ⟨quiet, waiting, goesOn⟩
  · simp [asserted, edge, active]
  · rcases stops with edge | elapsed
    · simp [abandoned, edge, idle]
    · simp [abandoned, elapsed, idle]
  · simp [confirmed, quiet, elapsed, active]
  · simp [goesOn, quiet, waiting]

/-- Escalation is armed exactly in an effective Dial menu (rules R181, R238). -/
theorem menuEff_beq_dial (f : DialFsm) : (menuEff f == mDial) = decide (f.menu = 0 ∨ 5 ≤ f.menu) := by
  have rows : ∀ m : BitVec 3, ((if 5 ≤ m then 0 else m) == mDial) = decide (m = 0 ∨ 5 ≤ m) := by decide
  rw [menuEff_eq]
  exact rows f.menu

/-- Settles O48: each clause is the branch of `tickConfirm_eq` that its premises select. -/
theorem tickInConfirm : Obligations.TickInConfirm := by
  intro s d p confirm n
  refine ⟨sampleLine .dial d s, rfl, ?_⟩
  rw [exec_tick_of_confirm d p confirm, tickConfirm_eq]
  refine ⟨fun edge active => ?asserted, fun edge idle => ?bounced,
    fun quiet (elapsed : s.confirmCount = 5000) active => ?confirmed,
    fun quiet (elapsed : s.confirmCount = 5000) idle => ?abandoned,
    fun quiet (waiting : s.confirmCount ≠ 5000) => ?goesOn⟩
  case asserted =>
    rw [if_pos edge, if_neg (ne_true_of_eq_false active)]
    rfl
  case bounced =>
    rw [if_pos edge, if_pos idle, exec_actNone]
    rfl
  case confirmed =>
    rw [if_neg (ne_true_of_eq_false quiet), if_pos elapsed, if_neg (ne_true_of_eq_false active), menuEff_beq_dial,
      confirmSampled_of_count d elapsed]
    rfl
  case abandoned =>
    rw [if_neg (ne_true_of_eq_false quiet), if_pos elapsed, if_pos idle, exec_actNone, confirmSampled_of_count d elapsed]
    rfl
  case goesOn =>
    rw [if_neg (ne_true_of_eq_false quiet), if_neg waiting]
    rfl

/-! ### The sample tick in the gesture phase (rules R240, R241, R243) -/

theorem tickGesture_of_goesOn {d p : Bool} {s : State}
    (h : (stepCounter (s.sampled d p)).pcOut = .outNone ∨ (stepCounter (s.sampled d p)).pcOut = .outPulse) :
    tickGesture d p s = stepCounter (s.sampled d p) := by
  unfold State.sampled at h ⊢
  rcases h with nothing | pulse
  · simp only [tickGesture, nothing]
  · simp only [tickGesture, pulse]

theorem tickGesture_of_outEsc {d p : Bool} {s : State} (h : (stepCounter (s.sampled d p)).pcOut = .outEsc) :
    tickGesture d p s = escalate (stepCounter (s.sampled d p)) := by
  unfold State.sampled at h ⊢
  simp only [tickGesture, h]

theorem tickGesture_of_outEnd {d p : Bool} {s : State} (h : (stepCounter (s.sampled d p)).pcOut = .outEnd) :
    tickGesture d p s = gestureEnd (stepCounter (s.sampled d p)) := by
  unfold State.sampled at h ⊢
  simp only [tickGesture, h]

theorem gestureEnd_of_invalid {s : State} (h : s.pc.digitValid = false) : gestureEnd s = loopTop s :=
  if_neg (ne_true_of_eq_false h)

theorem gestureEnd_of_valid {s : State} (h : s.pc.digitValid = true) :
    gestureEnd s = doAct (digitEvent (digitCode s.pc.digit) s).act (digitEvent (digitCode s.pc.digit) s) :=
  if_pos h

/-- The tone of each escalation (rule R196). -/
theorem escTone_eq (p : Params) (n : BitVec 2) : escTone p n =
    (if n = 1 then 13 else if n = 2 then 14 else 15, if n = 1 then p.beepLowMs else p.tuneMs) := by
  unfold escTone
  split
  · rfl
  · split <;> rfl

theorem escalate_eq (s : State) :
    let c : Code := if s.pc.esc = 1 then 13 else if s.pc.esc = 2 then 14 else 15
    let ms := if s.pc.esc = 1 then s.par.beepLowMs else s.par.tuneMs
    escalate s = { s with
      fsm := { s.fsm with menu := if s.pc.esc = 1 then 1 else if s.pc.esc = 2 then 2 else 3 }
      act := .tone c ms
      out := s.out ++ [.tone c ms]
      sch := { s.sch with retGesture := true, phase := .tone } } := by
  simp only [escalate, escEvent, escTone_eq, startTone_eq]
  rfl

/-- A digit that the end of a gesture resolved is a decimal one (rule R157). -/
theorem stepCounter_digit_le {s : State} (ended : (stepCounter s).pcOut = .outEnd)
    (valid : (stepCounter s).pc.digitValid = true) : (stepCounter s).pc.digit ≤ 9 := by
  rw [stepCounter_eq] at ended valid ⊢
  rcases pcStep_cases s.par s.dbDial.level s.dbPulse.level s.dbPulse.changed s.pc with
    ⟨-, e⟩ | ⟨-, -, -, e⟩ | ⟨-, -, -, -, e⟩ | ⟨-, -, -, e⟩
  · rw [e] at valid ⊢
    have digit := pcResolve_digit s.par (pcStop s.pc)
    rwa [if_pos valid] at digit
  all_goals
    rw [e] at ended
    cases ended

/-- The event of a decimal digit has the digit's own code (rule R105). -/
theorem digitCodeOf_digitInstr {d : BitVec 4} (h : d ≤ 9) : digitCodeOf (digitInstr d) = some (digitCode d) := by
  revert d
  decide

/-- Settles O49: one lemma for each outcome of the counter's step; a resolved digit is its own event at the menu. -/
theorem tickInGesture : Obligations.TickInGesture := by
  intro s d p gesture
  have taken := exec_tick_of_gesture d p gesture
  refine ⟨⟨_, taken⟩, stepCounter (s.sampled d p), rfl, ?_⟩
  rw [taken]
  refine ⟨fun goesOn => ?goesOn, fun threshold => ?escalated, fun ended invalid => ?discarded, fun ended valid => ?digit⟩
  case goesOn => rw [tickGesture_of_goesOn goesOn]
  case escalated =>
    rw [tickGesture_of_outEsc threshold, escalate_eq]
    rfl
  case discarded => rw [tickGesture_of_outEnd ended, gestureEnd_of_invalid invalid, exec_actNone]
  case digit =>
    refine ⟨_, exec_of_digitCodeOf (digitCodeOf_digitInstr (stepCounter_digit_le ended valid)) _, ?_⟩
    rw [tickGesture_of_outEnd ended, gestureEnd_of_valid valid, exec_toInstr]

/-! ### The phase graph (rule R249) -/

/-- Of the events only `RESET` and `TDONE` have a phase that they always leave. -/
theorem mem_phaseTargets_self (ph : Phase) (d p : Bool) :
    ph ∈ phaseTargets ph .irqw ∧ ph ∈ phaseTargets ph .irql ∧ ph ∈ phaseTargets ph (.tick d p) ∧
      ph ∈ phaseTargets ph .etick ∧ ph ∈ phaseTargets ph (.nop d p) := by
  cases ph <;> simp [phaseTargets]

@[simp] theorem loopTop_phase (s : State) : (loopTop s).sch.phase = .sleep := by
  rw [loopTop_eq]

theorem playNext_phase (s : State) : (playNext s).sch.phase ∈ [.playTone, .sleep] := by
  rcases playNext_cases s with ⟨j, hj, -, played⟩ | ended | ⟨-, absent⟩
  · simp [played]
  · simp [ended]
  · simp [absent]

theorem doAct_phase (a : Action) (s : State) : (doAct a s).sch.phase ∈ [.tone, .sleep, .playTone] := by
  rcases doAct_cases a s with ⟨-, e⟩ | ⟨code, ms, -, e⟩ | ⟨slot, -, j, hj, -, e⟩ | ⟨slot, -, e⟩
  all_goals simp [e, startTone_eq]

theorem timeoutPath_phase (s : State) : (timeoutPath s).sch.phase ∈ [.sleep, .tone] := by
  rcases timeoutPath_cases s with ⟨-, programmed⟩ | ⟨-, dialled⟩
  · simp [programmed, startTone_eq]
  · simp [dialled]

theorem tickConfirm_phase (d : Bool) {s : State} (h : s.sch.phase = .confirm) :
    (tickConfirm d s).sch.phase ∈ [.confirm, .sleep, .gesture] := by
  rcases tickConfirm_cases d s with ⟨-, -, asserted⟩ | ⟨-, -, abandoned⟩ | ⟨-, -, -, confirmed⟩ | ⟨-, -, waiting⟩
  · simp [asserted, sampleLine, h]
  · simp [abandoned]
  · simp [confirmed]
  · simp [waiting, sampleLine, h]

theorem tickGesture_phase (d p : Bool) {s : State} (h : s.sch.phase = .gesture) :
    (tickGesture d p s).sch.phase ∈ [.gesture, .tone, .sleep, .playTone] := by
  rcases tickGesture_cases d p s with ⟨-, -, digit⟩ | ⟨-, -, discarded⟩ | ⟨-, escalated⟩ | ⟨-, goesOn⟩
  · rw [digit]
    exact List.mem_cons_of_mem _ (doAct_phase _ _)
  · simp [discarded]
  · simp [escalated, startTone_eq]
  · simp [goesOn, stepCounter_eq, sampleLine, h]

/-- What rule R249 says of an event from `s`, and that it completes. -/
def FollowsPhaseGraph (i : Instr) (s : State) : Prop :=
  ∃ t, exec i s = .next t ∧ t.sch.phase ∈ phaseTargets s.sch.phase i

/-- An event that keeps the phase. -/
theorem FollowsPhaseGraph.of_phase {i : Instr} {s t : State} (h : exec i s = .next t) (phase : t.sch.phase = s.sch.phase)
    (kept : s.sch.phase ∈ phaseTargets s.sch.phase i) : FollowsPhaseGraph i s :=
  ⟨t, h, by rwa [phase]⟩

theorem irqw_followsPhaseGraph (s : State) : FollowsPhaseGraph .irqw s := by
  obtain ⟨kept, -⟩ := mem_phaseTargets_self s.sch.phase false false
  by_cases asleep : s.sch.phase = .sleep
  · refine ⟨_, exec_irqw_of_sleep asleep, ?_⟩
    rw [asleep]
    exact timeoutPath_phase _
  · exact .of_phase (exec_irqw_of_awake asleep) rfl kept

theorem irql_followsPhaseGraph (s : State) : FollowsPhaseGraph .irql s := by
  obtain ⟨-, kept, -⟩ := mem_phaseTargets_self s.sch.phase false false
  by_cases asleep : s.sch.phase = .sleep
  · refine ⟨_, exec_irql_of_sleep asleep, ?_⟩
    rw [asleep]
    split
    · exact List.mem_cons_of_mem _ (timeoutPath_phase _)
    · exact List.mem_cons_self
  · exact .of_phase (exec_irql_of_awake asleep) rfl kept

theorem tdone_followsPhaseGraph (s : State) : FollowsPhaseGraph .tdone s := by
  unfold FollowsPhaseGraph
  cases hp : s.sch.phase with
  | tone =>
    cases returns : s.sch.retGesture with
    | true => exact ⟨_, exec_tdone_of_escalation hp returns, List.mem_cons_self⟩
    | false => exact ⟨_, exec_tdone_of_lastTone hp returns, by simp [phaseTargets]⟩
  | playTone => exact ⟨_, exec_tdone_of_playTone hp, List.mem_cons_self⟩
  | playGap => exact ⟨_, exec_tdone_of_playGap hp, playNext_phase _⟩
  | sleep => exact ⟨s, exec_tdone_of_noTone (.inl hp), by simp [phaseTargets, hp]⟩
  | confirm => exact ⟨s, exec_tdone_of_noTone (.inr (.inl hp)), by simp [phaseTargets, hp]⟩
  | gesture => exact ⟨s, exec_tdone_of_noTone (.inr (.inr hp)), by simp [phaseTargets, hp]⟩

theorem tick_followsPhaseGraph (d p : Bool) (s : State) : FollowsPhaseGraph (.tick d p) s := by
  obtain ⟨-, -, kept, -⟩ := mem_phaseTargets_self s.sch.phase d p
  by_cases confirm : s.sch.phase = .confirm
  · refine ⟨_, exec_tick_of_confirm d p confirm, ?_⟩
    rw [confirm]
    exact tickConfirm_phase d confirm
  · by_cases gesture : s.sch.phase = .gesture
    · refine ⟨_, exec_tick_of_gesture d p gesture, ?_⟩
      rw [gesture]
      exact tickGesture_phase d p gesture
    · exact .of_phase (exec_tick_ignored d p confirm gesture) rfl kept

theorem event_followsPhaseGraph {i : Instr} (h : isEvent i = true) (s : State) : FollowsPhaseGraph i s := by
  cases i with
  | reset => exact ⟨_, rfl, List.mem_cons_self⟩
  | nop d p =>
    obtain ⟨-, -, -, -, kept⟩ := mem_phaseTargets_self s.sch.phase d p
    exact .of_phase rfl rfl kept
  | irqw => exact irqw_followsPhaseGraph s
  | irql => exact irql_followsPhaseGraph s
  | tdone => exact tdone_followsPhaseGraph s
  | etick =>
    obtain ⟨-, -, -, kept, -⟩ := mem_phaseTargets_self s.sch.phase false false
    exact .of_phase rfl rfl kept
  | tick d p => exact tick_followsPhaseGraph d p s
  | _ => cases h

/-- Settles O56, by the row of rule R249 of each event. -/
theorem phaseGraph : Obligations.PhaseGraph :=
  fun _ s _ event ht => exec_next_elim (event_followsPhaseGraph event s) ht

end Sys2Proof.Machine

/-! PROOFS of the statements of 60_exceptions.md: nothing stops the block (O52, O60), a sleeping block holds (O59), and which
tones and watchdog commands an event appends (O57, O58). -/

namespace Sys2Proof.Machine

/-! ### No operation stops (rules R280, R347) -/

/-- Settles O60: `exec_fixed` gives the next state of every instruction. -/
theorem everyInstructionCompletes : Obligations.EveryInstructionCompletes := by
  intro i s
  obtain ⟨t, ht, -⟩ := exec_fixed i s
  exact ⟨t, ht⟩

/-- Settles O52: the next state of `step_legal`. -/
theorem legalNeverStops : Obligations.LegalNeverStops := by
  intro s legal
  obtain ⟨t, ht, -⟩ := step_legal legal
  exact ⟨t, ht⟩

/-! ### The sleeping block (rules R247, R301) -/

/-- An elapsed-time tick finds the hold counter stopped. -/
theorem exec_etick_of_stopped {s : State} (h : s.pc.sfRun = false) : exec .etick s = .next s := by
  have taken : exec .etick s = .next (s.setPc (pcEtick s.pc)) := rfl
  have kept : pcEtick s.pc = s.pc := if_neg (ne_true_of_eq_false h)
  rw [taken, kept]
  rfl

/-- Settles O59: the sleep phase ignores `TICK` and `TDONE`, and legality stops the hold counter there. -/
theorem sleepingBlockHolds : Obligations.SleepingBlockHolds := by
  intro s d p legal asleep
  obtain ⟨registers, -⟩ := legal_iff.mp legal
  obtain ⟨-, -, -, holdStopped⟩ := (phaseLegal_sleep asleep).mp registers.phase
  refine ⟨exec_tick_ignored d p ?_ ?_, exec_tdone_of_noTone (.inl asleep), exec_etick_of_stopped holdStopped, rfl⟩
  · rw [asleep]; nofun
  · rw [asleep]; nofun

/-! ### How a wait ends (rules R231, R242, R296, R297) -/

/-- Commands that are neither a tone nor the watchdog's. -/
def Silent (cs : List Command) : Prop := ∀ c ∈ cs, isTone c = false ∧ isWatchdog c = false

theorem silent_nil : Silent [] := nofun

theorem Silent.append {cs ds : List Command} (hc : Silent cs) (hd : Silent ds) : Silent (cs ++ ds) := by
  intro c hm
  rcases List.mem_append.mp hm with hm | hm
  · exact hc c hm
  · exact hd c hm

theorem Silent.isTone {cs : List Command} (h : Silent cs) : ∀ c ∈ cs, isTone c = false := fun c hm => (h c hm).1

theorem Silent.filter_isWatchdog {cs : List Command} (h : Silent cs) : cs.filter isWatchdog = [] := by
  simpa [List.filter_eq_nil_iff] using fun c hm => (h c hm).2

/-- From `s` to `u` neither a tone nor a watchdog command is appended, and the record of the watchdog stays. -/
structure SilentTo (s u : State) : Prop where
  appends : ∃ pre, u.out = s.out ++ pre ∧ Silent pre
  watchdog : u.sch.wdtArmed = s.sch.wdtArmed

theorem SilentTo.of_out {s u : State} (out : u.out = s.out) (watchdog : u.sch.wdtArmed = s.sch.wdtArmed) : SilentTo s u :=
  ⟨⟨[], by rw [out, List.append_nil], silent_nil⟩, watchdog⟩

/-- The last commands of a step from `s` to `t` that ends a wait: a tone that the block then waits for, or those of
`LOOP_TOP`, which arms the watchdog where PendingNumber is non-empty (rule R231). -/
inductive Ending (s t : State) : List Command → Prop where
  | tone (code : Code) (ms : BitVec 16) (waits : waitsTone t.sch.phase = true)
      (watchdog : t.sch.wdtArmed = s.sch.wdtArmed) : Ending s t [.tone code ms]
  | sleep (asleep : t.sch.phase = .sleep) (watchdog : t.sch.wdtArmed = s.sch.wdtArmed) : Ending s t [.sleep]
  | arm (asleep : t.sch.phase = .sleep) (armed : t.sch.wdtArmed = true) (pending : t.fsm.pendLen ≠ 0) :
      Ending s t [.arm 3, .sleep]

/-- A step that ends a wait: silent commands, then one of the three endings. -/
structure EndsWait (s t : State) : Prop where
  appends : ∃ pre last, t.out = s.out ++ (pre ++ last) ∧ Silent pre ∧ Ending s t last

theorem Ending.of_watchdog {s u t : State} {last : List Command} (h : Ending u t last)
    (watchdog : u.sch.wdtArmed = s.sch.wdtArmed) : Ending s t last := by
  cases h with
  | tone code ms waits same => exact .tone code ms waits (same.trans watchdog)
  | sleep asleep same => exact .sleep asleep (same.trans watchdog)
  | arm asleep armed pending => exact .arm asleep armed pending

theorem EndsWait.of_ending {s t : State} {last : List Command} (out : t.out = s.out ++ last) (h : Ending s t last) :
    EndsWait s t :=
  ⟨[], last, out, silent_nil, h⟩

/-- A silent beginning changes nothing of how the wait ends. -/
theorem SilentTo.endsWait {s u t : State} (h : SilentTo s u) (ends : EndsWait u t) : EndsWait s t := by
  obtain ⟨⟨pre, before, silent⟩, watchdog⟩ := h
  obtain ⟨pre', last, out, silent', ending⟩ := ends
  refine ⟨pre ++ pre', last, ?_, silent.append silent', ending.of_watchdog watchdog⟩
  rw [out, before]
  simp only [List.append_assoc]

/-- `SilentTo.endsWait` where the beginning emits nothing. -/
theorem EndsWait.of_same {s u t : State} (ends : EndsWait u t) (out : u.out = s.out)
    (watchdog : u.sch.wdtArmed = s.sch.wdtArmed) : EndsWait s t :=
  (SilentTo.of_out out watchdog).endsWait ends

theorem startTone_endsWait (code : Code) (ms : BitVec 16) (r : Bool) (s : State) : EndsWait s (startTone code ms r s) :=
  .of_ending rfl (.tone code ms rfl rfl)

theorem loopTop_endsWait (s : State) : EndsWait s (loopTop s) := by
  rw [loopTop_eq, loopTopCommands]
  by_cases empty : s.fsm.pendLen = 0
  · rw [if_pos empty, if_pos empty]
    exact .of_ending rfl (.sleep rfl rfl)
  · rw [if_neg empty, if_neg empty]
    exact .of_ending rfl (.arm rfl rfl empty)

theorem playNext_endsWait (s : State) : EndsWait s (playNext s) := by
  rcases playNext_cases s with ⟨j, hj, -, played⟩ | ended | ⟨-, absent⟩
  · rw [played]
    exact .of_ending rfl (.tone _ _ rfl rfl)
  · rw [ended]
    exact (loopTop_endsWait _).of_same rfl rfl
  · rw [absent]
    exact .of_ending rfl (.tone _ _ rfl rfl)

theorem sdLoad_silentTo (slot : BitVec 3) (s : State) : SilentTo s (sdLoad slot s) := by
  rw [sdLoad_eq]
  refine ⟨⟨_, rfl, ?_⟩, rfl⟩
  split
  · exact silent_nil
  · simp [Silent, isTone, isWatchdog]

theorem doAct_endsWait (a : Action) (s : State) : EndsWait s (doAct a s) := by
  cases a with
  | none => exact loopTop_endsWait s
  | tone code ms => exact startTone_endsWait code ms false s
  | dialout slot => exact (sdLoad_silentTo slot s).endsWait (playNext_endsWait _)

theorem timeoutEvent_silentTo (s : State) : SilentTo s (timeoutEvent s) := by
  obtain ⟨new, ps, committed, silent, -⟩ := timeoutEvent_cases s
  rw [committed]
  exact ⟨⟨new, rfl, silent⟩, rfl⟩

theorem timeoutPath_endsWait (s : State) : EndsWait s (timeoutPath s) :=
  (timeoutEvent_silentTo s).endsWait (doAct_endsWait _ _)

/-- The commit empties PendingNumber, so that the timeout path never arms the watchdog (rules R197, R235). -/
theorem timeoutPath_pendLen (s : State) : (timeoutPath s).fsm.pendLen = 0 := by
  have emptied : (timeoutEvent s).fsm.pendLen = 0 := by
    obtain ⟨new, ps, committed, -⟩ := timeoutEvent_cases s
    rw [committed]
  rcases timeoutPath_cases s with ⟨-, programmed⟩ | ⟨-, dialled⟩
  · rw [programmed, startTone_eq]
    exact emptied
  · rw [dialled, loopTop_eq]
    exact emptied

/-! ### The four ways of an event (rules R232 to R247) -/

/-- What an event other than `RESET` does to the commands, the phase and the watchdog, from `s` to `t`. -/
inductive EventWay (i : Instr) (s t : State) : Prop where
  /-- nothing is emitted, and a tone waited for is still outstanding -/
  | quiet (out : t.out = s.out) (watchdog : t.sch.wdtArmed = s.sch.wdtArmed)
      (waiting : waitsTone t.sch.phase = true → waitsTone s.sch.phase = true ∧ i ≠ .tdone)
  /-- an awake block ends a wait, that for a tone by `TDONE` alone -/
  | ends (awake : s.sch.phase ≠ .sleep) (taken : waitsTone s.sch.phase = true → i = .tdone) (ending : EndsWait s t)
  /-- a wake by the line path -/
  | lineWake (asleep : s.sch.phase = .sleep) (interrupt : i = .irqw ∨ i = .irql) (out : t.out = s.woken.out)
      (watchdog : t.sch.wdtArmed = false) (confirm : t.sch.phase = .confirm)
  /-- a wake by the timeout path, after which PendingNumber is empty -/
  | timeoutWake (asleep : s.sch.phase = .sleep) (interrupt : i = .irqw ∨ i = .irql) (ending : EndsWait s.woken t)
      (empty : t.fsm.pendLen = 0)

/-- An event that keeps the phase and emits nothing. -/
theorem EventWay.of_phase {i : Instr} {s t : State} (hi : i ≠ .tdone) (out : t.out = s.out)
    (watchdog : t.sch.wdtArmed = s.sch.wdtArmed) (phase : t.sch.phase = s.sch.phase) : EventWay i s t :=
  .quiet out watchdog fun waits => ⟨phase ▸ waits, hi⟩

/-- An event that emits nothing and leads to a phase without a tone. -/
theorem EventWay.of_noWait {i : Instr} {s t : State} (out : t.out = s.out)
    (watchdog : t.sch.wdtArmed = s.sch.wdtArmed) (noWait : waitsTone t.sch.phase = false) : EventWay i s t :=
  .quiet out watchdog fun waits => absurd waits (ne_true_of_eq_false noWait)

theorem irqw_way (s : State) : ∃ t, exec .irqw s = .next t ∧ EventWay .irqw s t := by
  by_cases asleep : s.sch.phase = .sleep
  · exact ⟨_, exec_irqw_of_sleep asleep,
      .timeoutWake asleep (.inl rfl) (timeoutPath_endsWait _) (timeoutPath_pendLen _)⟩
  · exact ⟨_, exec_irqw_of_awake asleep, .of_phase nofun rfl rfl rfl⟩

theorem irql_way (s : State) : ∃ t, exec .irql s = .next t ∧ EventWay .irql s t := by
  by_cases asleep : s.sch.phase = .sleep
  · refine ⟨_, exec_irql_of_sleep asleep, ?_⟩
    split
    · exact .timeoutWake asleep (.inr rfl) (timeoutPath_endsWait _) (timeoutPath_pendLen _)
    · exact .lineWake asleep (.inr rfl) rfl rfl rfl
  · exact ⟨_, exec_irql_of_awake asleep, .of_phase nofun rfl rfl rfl⟩

theorem tdone_way (s : State) : ∃ t, exec .tdone s = .next t ∧ EventWay .tdone s t := by
  have ends {t : State} (awake : s.sch.phase ≠ .sleep) (h : EndsWait s t) : EventWay .tdone s t :=
    .ends awake (fun _ => rfl) h
  cases hp : s.sch.phase with
  | tone =>
    cases returns : s.sch.retGesture with
    | true => exact ⟨_, exec_tdone_of_escalation hp returns, .of_noWait rfl rfl rfl⟩
    | false => exact ⟨_, exec_tdone_of_lastTone hp returns, ends (by simp [hp]) (loopTop_endsWait s)⟩
  | playTone =>
    exact ⟨_, exec_tdone_of_playTone hp, ends (by simp [hp]) (.of_ending rfl (.tone _ _ rfl rfl))⟩
  | playGap =>
    exact ⟨_, exec_tdone_of_playGap hp, ends (by simp [hp]) ((playNext_endsWait _).of_same rfl rfl)⟩
  | sleep => exact ⟨s, exec_tdone_of_noTone (.inl hp), .of_noWait rfl rfl (by simp [hp, waitsTone])⟩
  | confirm => exact ⟨s, exec_tdone_of_noTone (.inr (.inl hp)), .of_noWait rfl rfl (by simp [hp, waitsTone])⟩
  | gesture => exact ⟨s, exec_tdone_of_noTone (.inr (.inr hp)), .of_noWait rfl rfl (by simp [hp, waitsTone])⟩

/-- A wait that is not for a tone. -/
theorem EventWay.of_endsWait {i : Instr} {s t : State} (h : s.sch.phase = .confirm ∨ s.sch.phase = .gesture)
    (ending : EndsWait s t) : EventWay i s t := by
  refine .ends ?_ ?_ ending
  all_goals rcases h with h | h
  all_goals simp [h, waitsTone]

theorem tickConfirm_way (d p : Bool) {s : State} (h : s.sch.phase = .confirm) :
    EventWay (.tick d p) s (tickConfirm d s) := by
  rcases tickConfirm_cases d s with ⟨-, -, asserted⟩ | ⟨-, -, abandoned⟩ | ⟨-, -, -, confirmed⟩ | ⟨-, -, waiting⟩
  · rw [asserted]
    exact .of_phase nofun rfl rfl rfl
  · rw [abandoned]
    exact .of_endsWait (.inl h) ((loopTop_endsWait _).of_same rfl rfl)
  · rw [confirmed]
    exact .of_noWait rfl rfl rfl
  · rw [waiting]
    exact .of_phase nofun rfl rfl rfl

theorem tickGesture_way (d p : Bool) {s : State} (h : s.sch.phase = .gesture) :
    EventWay (.tick d p) s (tickGesture d p s) := by
  rcases tickGesture_cases d p s with ⟨-, -, digit⟩ | ⟨-, -, discarded⟩ | ⟨-, escalated⟩ | ⟨-, goesOn⟩
  · rw [digit]
    exact .of_endsWait (.inr h) ((doAct_endsWait _ _).of_same rfl rfl)
  · rw [discarded]
    exact .of_endsWait (.inr h) ((loopTop_endsWait _).of_same rfl rfl)
  · rw [escalated]
    exact .of_endsWait (.inr h) ((startTone_endsWait _ _ _ _).of_same rfl rfl)
  · rw [goesOn]
    exact .of_phase nofun rfl rfl rfl

theorem tick_way (d p : Bool) (s : State) : ∃ t, exec (.tick d p) s = .next t ∧ EventWay (.tick d p) s t := by
  by_cases confirm : s.sch.phase = .confirm
  · exact ⟨_, exec_tick_of_confirm d p confirm, tickConfirm_way d p confirm⟩
  · by_cases gesture : s.sch.phase = .gesture
    · exact ⟨_, exec_tick_of_gesture d p gesture, tickGesture_way d p gesture⟩
    · exact ⟨_, exec_tick_ignored d p confirm gesture, .of_phase nofun rfl rfl rfl⟩

theorem event_way {i : Instr} (h : isEvent i = true) (hr : i ≠ .reset) (s : State) :
    ∃ t, exec i s = .next t ∧ EventWay i s t := by
  cases i with
  | reset => exact absurd rfl hr
  | nop d p => exact ⟨s, rfl, .of_phase nofun rfl rfl rfl⟩
  | irqw => exact irqw_way s
  | irql => exact irql_way s
  | tdone => exact tdone_way s
  | etick => exact ⟨_, rfl, .of_phase nofun rfl rfl rfl⟩
  | tick d p => exact tick_way d p s
  | _ => cases h

/-- The commands of a wake before it takes its path (rule R234). -/
theorem woken_out (s : State) : s.woken.out = s.out ++ if s.sch.wdtArmed then [.disarm] else [] := rfl

/-! ### One tone outstanding (rules R44, R296) -/

/-- What rule R296 says of an event from `s` to `t`. -/
def OneTone (i : Instr) (s t : State) : Prop :=
  ∃ new, t.out = s.out ++ new ∧ (new.filter isTone).length ≤ 1 ∧
    (new.any isTone = true → waitsTone t.sch.phase = true ∧ (waitsTone s.sch.phase = true → i = .tdone)) ∧
    (waitsTone t.sch.phase = true → new.any isTone = true ∨ (waitsTone s.sch.phase = true ∧ i ≠ .tdone))

theorem OneTone.of_noTone {i : Instr} {s t : State} {new : List Command} (out : t.out = s.out ++ new)
    (noTone : ∀ c ∈ new, isTone c = false)
    (waiting : waitsTone t.sch.phase = true → waitsTone s.sch.phase = true ∧ i ≠ .tdone) : OneTone i s t := by
  have filtered : new.filter isTone = [] := by simpa [List.filter_eq_nil_iff] using noTone
  have none : ¬ new.any isTone = true := by simpa using noTone
  exact ⟨new, out, by simp [filtered], fun tone => absurd tone none, fun waits => .inr (waiting waits)⟩

theorem OneTone.of_lastTone {i : Instr} {s t : State} {pre : List Command} {code : Code} {ms : BitVec 16}
    (out : t.out = s.out ++ (pre ++ [.tone code ms])) (noTone : ∀ c ∈ pre, isTone c = false)
    (waits : waitsTone t.sch.phase = true) (taken : waitsTone s.sch.phase = true → i = .tdone) : OneTone i s t := by
  have filtered : pre.filter isTone = [] := by simpa [List.filter_eq_nil_iff] using noTone
  exact ⟨_, out, by simp [filtered, List.filter_cons, isTone], fun _ => ⟨waits, taken⟩, fun _ => .inl (by simp [isTone])⟩

/-- The end of a wait, after commands that are no tone, appends its one tone last or none. -/
theorem EndsWait.oneTone {i : Instr} {s u t : State} {before : List Command} (h : EndsWait u t)
    (hu : u.out = s.out ++ before) (noTone : ∀ c ∈ before, isTone c = false)
    (taken : waitsTone s.sch.phase = true → i = .tdone) : OneTone i s t := by
  obtain ⟨pre, last, out, silent, ending⟩ := h
  have appended : t.out = s.out ++ (before ++ pre ++ last) := by
    rw [out, hu]
    simp only [List.append_assoc]
  have noTone' : ∀ c ∈ before ++ pre, isTone c = false := by
    simpa [or_imp, forall_and] using ⟨noTone, silent.isTone⟩
  cases ending with
  | tone code ms waits => exact .of_lastTone appended noTone' waits taken
  | sleep asleep =>
    refine .of_noTone appended ?_ (by simp [asleep, waitsTone])
    simpa [isTone, or_imp, forall_and] using noTone'
  | arm asleep =>
    refine .of_noTone appended ?_ (by simp [asleep, waitsTone])
    simpa [isTone, or_imp, forall_and] using noTone'

theorem EventWay.oneTone {i : Instr} {s t : State} (h : EventWay i s t) : OneTone i s t := by
  have disarmNoTone : ∀ c ∈ (if s.sch.wdtArmed then [Command.disarm] else []), isTone c = false := by
    split <;> simp [isTone]
  cases h with
  | quiet out watchdog waiting => exact .of_noTone (new := []) (by simp [out]) nofun waiting
  | ends awake taken ending => exact ending.oneTone (before := []) (by simp) nofun taken
  | lineWake asleep interrupt out watchdog confirm =>
    exact .of_noTone (out.trans (woken_out s)) disarmNoTone (by simp [confirm, waitsTone])
  | timeoutWake asleep interrupt ending =>
    exact ending.oneTone (woken_out s) disarmNoTone (by simp [asleep, waitsTone])

theorem reset_oneTone (s : State) : OneTone .reset s (resetBlock s) := by
  rw [resetBlock_eq]
  exact .of_noTone (new := [.tsInit, .sleep]) (by simp) (by simp [isTone]) (by simp [waitsTone])

/-- Settles O57: `RESET` issues no tone, and every other event goes one of the ways of `EventWay`. -/
theorem oneToneOutstanding : Obligations.OneToneOutstanding := by
  intro i s t event ht
  by_cases reset : i = .reset
  · subst reset
    obtain rfl : resetBlock s = t := Host.Outcome.next.inj ht
    exact reset_oneTone s
  · exact EventWay.oneTone (exec_next_elim (event_way event reset s) ht)

/-! ### The watchdog's commands alternate (rules R40, R297) -/

/-- What rule R297 says of an event from `s` to `t`. -/
def Alternates (i : Instr) (s t : State) : Prop :=
  ∃ new, t.out = s.out ++ new ∧
    (s.sch.wdtArmed = false →
      (new.filter isWatchdog = [] ∧ t.sch.wdtArmed = false) ∨
      (∃ pre, new = pre ++ [.arm 3, .sleep] ∧ pre.filter isWatchdog = [] ∧ t.sch.wdtArmed = true)) ∧
    (s.sch.wdtArmed = true →
      (new = [] ∧ t.sch.wdtArmed = true) ∨
      (∃ post, new = .disarm :: post ∧ post.filter isWatchdog = [] ∧ t.sch.wdtArmed = false ∧
        (i = .irqw ∨ i = .irql)))

/-- A wait ends with no watchdog armed: armed directly before the sleep, or not at all. -/
theorem EndsWait.alternates {i : Instr} {s t : State} (h : EndsWait s t) (disarmed : s.sch.wdtArmed = false) :
    Alternates i s t := by
  obtain ⟨pre, last, out, silent, ending⟩ := h
  have noWatchdog := silent.filter_isWatchdog
  refine ⟨pre ++ last, out, fun _ => ?_, fun armed => absurd armed (ne_true_of_eq_false disarmed)⟩
  cases ending with
  | tone code ms waits watchdog => exact .inl ⟨by simp [noWatchdog, isWatchdog], watchdog.trans disarmed⟩
  | sleep asleep watchdog => exact .inl ⟨by simp [noWatchdog, isWatchdog], watchdog.trans disarmed⟩
  | arm asleep armed => exact .inr ⟨pre, rfl, noWatchdog, armed⟩

/-- With PendingNumber empty a wait ends without a watchdog command. -/
theorem EndsWait.noWatchdog {s t : State} (h : EndsWait s t) (empty : t.fsm.pendLen = 0) :
    ∃ post, t.out = s.out ++ post ∧ post.filter isWatchdog = [] ∧ t.sch.wdtArmed = s.sch.wdtArmed := by
  obtain ⟨pre, last, out, silent, ending⟩ := h
  have noWatchdog := silent.filter_isWatchdog
  refine ⟨pre ++ last, out, ?_⟩
  cases ending with
  | tone code ms waits watchdog => exact ⟨by simp [noWatchdog, isWatchdog], watchdog⟩
  | sleep asleep watchdog => exact ⟨by simp [noWatchdog, isWatchdog], watchdog⟩
  | arm asleep armed pending => exact absurd empty pending

/-- A wake, whose path arms nothing, disarms an armed watchdog first. -/
theorem alternates_of_wake {i : Instr} {s t : State} {post : List Command} (interrupt : i = .irqw ∨ i = .irql)
    (out : t.out = s.woken.out ++ post) (noWatchdog : post.filter isWatchdog = []) (disarmed : t.sch.wdtArmed = false) :
    Alternates i s t := by
  cases armed : s.sch.wdtArmed with
  | false =>
    have appended : t.out = s.out ++ post := by simpa [woken_out, armed] using out
    exact ⟨post, appended, fun _ => .inl ⟨noWatchdog, disarmed⟩, fun h => absurd (armed.symm.trans h) nofun⟩
  | true =>
    have appended : t.out = s.out ++ .disarm :: post := by simpa [woken_out, armed] using out
    exact ⟨_, appended, fun h => absurd (armed.symm.trans h) nofun,
      fun _ => .inr ⟨post, rfl, noWatchdog, disarmed, interrupt⟩⟩

theorem EventWay.alternates {i : Instr} {s t : State} (h : EventWay i s t)
    (onlyAsleep : s.sch.wdtArmed = true → s.sch.phase = .sleep) : Alternates i s t := by
  cases h with
  | quiet out watchdog =>
    exact ⟨[], by simp [out], fun disarmed => .inl ⟨rfl, watchdog.trans disarmed⟩,
      fun armed => .inl ⟨rfl, watchdog.trans armed⟩⟩
  | ends awake taken ending => exact ending.alternates (eq_false_of_ne_true (mt onlyAsleep awake))
  | lineWake asleep interrupt out watchdog =>
    exact alternates_of_wake (post := []) interrupt (by simp [out]) rfl watchdog
  | timeoutWake asleep interrupt ending empty =>
    obtain ⟨post, out, noWatchdog, watchdog⟩ := ending.noWatchdog empty
    exact alternates_of_wake interrupt out noWatchdog watchdog

/-- Settles O58: each way of `EventWay` alternates, since an armed block is asleep and only wakes. -/
theorem watchdogAlternates : Obligations.WatchdogAlternates :=
  fun _ s _ event hr onlyAsleep ht => EventWay.alternates (exec_next_elim (event_way event hr s) ht) onlyAsleep

end Sys2Proof.Machine

/-! PROOFS of the statements of 70_reset_and_hazards.md: what `RESET` leaves in every register (O9), the model's own reset
state (O10), the recovery from any register content (O53), and the misrouted wake of rule R336 (O46). -/

namespace Sys2Proof.Machine

/-! ### `RESET` (rules R8, R41, R320, R340) -/

theorem exec_reset (s : State) : exec .reset s = .next (resetBlock s) := rfl

/-- The history of a line at rest, by the level that counts as asserted (rules R11, R21). -/
theorem histOf_not (level : Bool) : histOf (!level) = if level then 0x00 else 0xFF := by
  cases level <;> exact histOf_eq _

/-- Settles O9: the record of `resetBlock_eq`, with the pulse line's history and the two commands as rule R320 writes
them. -/
theorem resetSetsEveryRegister : Obligations.ResetSetsEveryRegister := by
  intro s
  rw [exec_reset, resetBlock_eq, histOf_not, List.append_assoc]
  rfl

/-- `RESET` forgets every register of the block: two states that agree in the store, the build, the commands and wires of
the period, the trace and the clock are the same state after it. -/
theorem resetBlock_congr {s t : State} (ps : s.ps = t.ps) (par : s.par = t.par) (out : s.out = t.out)
    (pcOut : s.pcOut = t.pcOut) (act : s.act = t.act) (input : s.input = t.input) (clock : s.clock = t.clock) :
    resetBlock s = resetBlock t := by
  rw [resetBlock_eq, resetBlock_eq, ps, par, out, pcOut, act, input, clock]

/-- Settles O10: by `resetBlock_congr` the registers before do not count, and `State.reset` is one such reset. -/
theorem machineResetIsReset : Obligations.MachineResetIsReset := by
  intro s par ps out pcOut act input clock
  calc exec .reset s
      = .next (resetBlock s) := exec_reset s
    _ = .next (resetBlock { State.reset with out := [] }) :=
        congrArg Host.Outcome.next (resetBlock_congr ps par out pcOut act input clock)
    _ = .next State.reset := by rw [← reset_eq_resetBlock]

theorem resetBlock_quiescent (s : State) : Quiescent (resetBlock s) := by
  rw [resetBlock_eq]
  exact ⟨rfl, rfl⟩

/-- Settles O53: `resetBlock_legal` makes the registers legal whatever they held, and the rest of `Legal` is about what
`RESET` keeps. -/
theorem resetRecovers : Obligations.ResetRecovers := by
  intro s t store valid pins ht
  obtain rfl : resetBlock s = t := Host.Outcome.next.inj ht
  exact ⟨legal_iff.mpr ⟨resetBlock_legal s, store, valid, pins⟩, resetBlock_quiescent s⟩

/-! ### The wake-reason hazard (rules R234, R336) -/

/-- Settles O46: with the reason latched both interrupts take the timeout path of the woken state. -/
theorem latchedReasonMisroutes : Obligations.LatchedReasonMisroutes := by
  intro s asleep latched
  calc exec .irql s
      = .next (timeoutPath s.woken) := by rw [exec_irql_of_sleep asleep, if_pos latched]
    _ = exec .irqw s := (exec_irqw_of_sleep asleep).symm

end Sys2Proof.Machine
